-- ==== Sys2Proof/Word.lean ====
section
/-! DEFINITION. The words of the block: bytes, registers and window offsets (spec/00_scope.md R7 to R9). -/

namespace Sys2Proof

/-- A byte, an unsigned 8-bit value (R9); also one character of text (R10). -/
abbrev Byte := BitVec 8

/-- A host-visible register, REG_W = 32 bits (R7, R22), and a CMD32 command word (R80). -/
abbrev Word := BitVec 32

/-- A byte offset in the host window, ADDR_W = 18 bits (R7, R50). -/
abbrev Offset := BitVec 18

/-- A nibble, 4 bits (the glossary of 00_scope.md). -/
abbrev Nibble := BitVec 4

/-- A symbol, one Base32 character before table look-up, 5 bits (the glossary of 00_scope.md). -/
abbrev Symbol := BitVec 5

end Sys2Proof
end

