-- ==== Sys2Proof/Syntax.lean ====
section
/-! DEFINITION. The commands of the block, one constructor for each row of spec/opcode_table.json (R3, R81). -/

namespace Sys2Proof

/-- The three commands. None has an operand in its word: their operands are IN_LEN and IN (R82). -/
inductive Instr where
  /-- ENCODE_HEX, word 0x00000000 (R120). -/
  | encodeHex
  /-- DECODE_HEX, word 0x00000001 (R140). -/
  | decodeHex
  /-- ENCODE_BASE32, word 0x00000002 (R160). -/
  | encodeBase32
  deriving DecidableEq, Repr

end Sys2Proof
end

