-- ==== Sys2Proof/Machine/HostSyntax.lean ====
section
/-! DEFINITION. The syntax of host programs (spec/30_encoding.md R86). It belongs to the host, not to the block (D24). -/

namespace Sys2Proof.Machine

/-- The host-visible registers a statement can name (R22, R86). -/
inductive Reg where
  | cmd | status | inLen | outLen | cap
  deriving DecidableEq, Repr

/-- A value operand (R86). Programs P2 and P5 also write back a value read before, so a host variable may stand here (log 14). -/
inductive Val where
  /-- a number -/
  | num (v : Nat)
  /-- one of the three mnemonics, which stands for its CMD32 word -/
  | op (i : Instr)
  /-- a host variable -/
  | var (x : Nat)
  deriving DecidableEq, Repr

/-- The statements of R86. Host variables and labels are numbered. -/
inductive Stmt where
  /-- `W32 <reg>, <value>` -/
  | w32 (r : Reg) (v : Val)
  /-- `R32 <reg> -> <var>` -/
  | r32 (r : Reg) (x : Nat)
  /-- `W8 IN+<i>, <value>` -/
  | w8in (i : Nat) (v : Val)
  /-- `R8 IN+<i> -> <var>` -/
  | r8in (i : Nat) (x : Nat)
  /-- `W8 OUT+<j>, <value>`: legal syntax for a write the block ignores -/
  | w8out (j : Nat) (v : Val)
  /-- `R8 OUT+<j> -> <var>` -/
  | r8out (j : Nat) (x : Nat)
  /-- `R8 <reg> -> <var>`: program P3's byte read of a register, answered BUS_ERROR (log 14) -/
  | r8reg (r : Reg) (x : Nat)
  /-- `<label>:` -/
  | label (l : Nat)
  /-- `JEQ <var>[hi:lo], <value>, <label>` -/
  | jeq (x hi lo : Nat) (v : Val) (l : Nat)
  /-- `END` -/
  | stop
  deriving DecidableEq, Repr

end Sys2Proof.Machine
end

