-- ==== Sys2Proof/WellFormed.lean ====
section
/-! DEFINITION. Well-formed command words and host programs (spec/30_encoding.md R80, R81, R84, R86). -/

namespace Sys2Proof

/-- A CMD32 word that names an operation: RSV = w[31:2] is 0 and OP = w[1:0] is not the reserved 3 (R80, R84). -/
def CmdWord.wf (w : Word) : Bool := w.extractLsb' 2 30 == 0#30 && w.extractLsb' 0 2 != 3#2

/-- Every command is well formed: its word carries no operand that could be out of range (R80, R82). -/
def Instr.wf : Instr → Bool
  | .encodeHex => true
  | .decodeHex => true
  | .encodeBase32 => true

namespace Machine

/-- A value that fits `bits` bits (R52: v has 8n bits); a host variable always holds the data lines of a read. -/
def Val.wf (bits : Nat) : Val → Bool
  | .num v => v < 2 ^ bits
  | .op _ => true
  | .var _ => true

/-- A statement of R86 that names an offset inside its region (R51), a value of its width and an existing bit field. -/
def Stmt.wf : Stmt → Bool
  | .w32 _ v => Val.wf 32 v
  | .r32 _ _ => true
  | .w8in i v => i < 0x10000 && Val.wf 8 v
  | .r8in i _ => i < 0x10000
  | .w8out j v => j < 0x20000 && Val.wf 8 v
  | .r8out j _ => j < 0x20000
  | .r8reg _ _ => true
  | .label _ => true
  | .jeq _ hi lo v _ => lo ≤ hi && hi < 32 && Val.wf 32 v
  | .stop => true

/-- The label a statement jumps to names a statement of the program. -/
def Stmt.targetIn (p : List Stmt) : Stmt → Bool
  | .jeq _ _ _ _ l => p.contains (.label l)
  | _ => true

/-- No label is given twice. -/
def labelsOnce : List Stmt → Bool
  | [] => true
  | .label l :: p => !p.contains (.label l) && labelsOnce p
  | _ :: p => labelsOnce p

/-- A well-formed host program: well-formed statements, every jump to an existing label, no label given twice. -/
def HostProgram.wf (p : List Stmt) : Bool := p.all (fun t => t.wf && t.targetIn p) && labelsOnce p

end Machine

end Sys2Proof
end

