-- ==== Sys2Proof/Decode.lean ====
section
/-! DEFINITION. The decoder of CMD32 words, total over all 2^32 words, and after it the encoder
(spec/30_encoding.md R80, R81, R83, R84). -/

namespace Sys2Proof

/-- Why a word names no operation (R83, R84). The block accepts such a word and ends it in ILLEGAL_OP (R204). -/
inductive DecodeError where
  /-- RSV = w[31:2] is not 0. -/
  | reservedBits
  /-- OP = 3, the reserved code (no Base32 decoder, R169). -/
  | reservedOp
  deriving DecidableEq, Repr

/-- The OP field, w[1:0] (R80). -/
def opField (w : Word) : BitVec 2 := w.extractLsb' 0 2

/-- The RSV field, w[31:2] (R80). -/
def rsvField (w : Word) : BitVec 30 := w.extractLsb' 2 30

/-- R83. -/
def decode (w : Word) : Except DecodeError Instr :=
  if rsvField w ≠ 0#30 then .error .reservedBits
  else if opField w = 0#2 then .ok .encodeHex
  else if opField w = 1#2 then .ok .decodeHex
  else if opField w = 2#2 then .ok .encodeBase32
  else .error .reservedOp

/-- The OP code of a command (R81). -/
def opcode : Instr → BitVec 2
  | .encodeHex => 0b00#2
  | .decodeHex => 0b01#2
  | .encodeBase32 => 0b10#2

/-- The CMD32 word of a command: RSV = 0 in bits 31:2, OP in bits 1:0 (R80, R81). -/
def encode (i : Instr) : Word := 0#30 ++ opcode i

/-- The command the decoder reads from a word of `nbits` bits numbered as spec/opcode_table.json numbers them. The block
has no byte order to lay the bits out by: register bit k is bus bit k (R57, R58; log 19). Bits above `nbits` are 0; a word
longer than the one 32-bit format is no command (R80, R85). -/
def decodeTableWord (nbits w : Nat) : Option Instr :=
  if nbits ≤ 32 ∧ w < 2 ^ nbits then (decode (BitVec.ofNat 32 w)).toOption else none

end Sys2Proof
end

