-- ==== Sys2Proof/Config.lean ====
section
/-! DEFINITION. What one implementation of the block fixes, and the free values: constants without a body, so that
no proof can depend on what they are (spec/00_scope.md R7, spec/93_implementation_defined.md U2, U5, U11). -/

namespace Sys2Proof

/-- The implementation's choice behind IN_CAP: any number (R7, U11; log 4). -/
opaque Config.inCapChoice : Nat

/-- IN_CAP, the input buffer's capacity in bytes, an open parameter with 1 <= IN_CAP <= 65536 (R7, D5; log 4):
every value of that range is the value for some choice. Reset puts it into CAP (R29, R39). -/
def Config.inCap : BitVec 17 := BitVec.ofNat 17 (Config.inCapChoice % 65536 + 1)

/-- WINDOW_BASE, where the window sits in the host's own address space: a platform parameter left open (R50, U11; log 12). -/
opaque Config.windowBase : Nat

/-- U5: what IN[i] reads as while the host has not written it since reset number `epoch`: one draw per byte and reset. -/
opaque Config.inDraw : (epoch : Nat) → (i : Nat) → Byte

/-- U2 (R40): what the `k`-th read of an unspecified OUT byte returns: a fresh draw at each read. -/
opaque Config.outDraw : (k : Nat) → Byte

end Sys2Proof
end

