-- ==== Sys2Proof/Machine/State.lean ====
section
/-! DEFINITION. The state of the block and of its environment, as plain data (spec/10_state.md), the reasons a step can
stop, and the state after reset (R39). -/

namespace Sys2Proof.Machine

/-- STATUS.STATE (R28). -/
inductive CmdState where
  /-- 0: no command since reset -/
  | idle
  /-- 1: a command is running -/
  | busy
  /-- 2: the last command gave a result -/
  | done
  /-- 3: the last command failed -/
  | error
  deriving DecidableEq, Repr

/-- STATUS.ERR_CODE (R28, R201 to R204). Codes 5 to 7 are reserved and never produced (U7). -/
inductive ErrCode where
  | none | invalidCharacter | invalidLength | capacityExceeded | illegalOp
  deriving DecidableEq, Repr

/-- The STATUS register's fields (R28). Its word, with the reserved bits at 0, is `statusWord`. -/
structure Status where
  state   : CmdState
  errCode : ErrCode
  errInfo : Byte
  op      : BitVec 2
  deriving DecidableEq, Repr

/-- PHASE (R34): CHECK runs the command-level checks, RUN runs the datapath. -/
inductive Phase where
  | check | run
  deriving DecidableEq, Repr

/-- A host access: MemRead(addr, n) or MemWrite(addr, n, v) with n = 1 or 4 and v of 8n bits (R52). -/
inductive Access where
  | read1 (addr : Offset)
  | read4 (addr : Offset)
  | write1 (addr : Offset) (v : Byte)
  | write4 (addr : Offset) (v : Word)
  deriving DecidableEq, Repr

/-- The one response of an access (R52). -/
inductive Response where
  /-- OK, to a write -/
  | ok
  /-- OK with the data of a 1-byte read -/
  | data8 (v : Byte)
  /-- OK with the data of a 4-byte read -/
  | data32 (v : Word)
  /-- BUS_ERROR: no state changed, read data 0 (R52, R206) -/
  | busError
  deriving DecidableEq, Repr

/-- What reaches the block from outside: an access, the reset input (R230), or nothing for a while (the host may stay
away while the core moves, R64). -/
inductive Event where
  | access (a : Access)
  | reset
  | pause
  deriving DecidableEq, Repr

/-- An event and the number of core steps that fall between it and the next one (R64; log 1). -/
structure Turn where
  event : Event
  gap   : Nat
  deriving DecidableEq, Repr

/-- Bytes by index, only those that hold a known value, in one canonical form (`Memory.wf`): indices strictly rising. -/
abbrev Memory := List Host.Cell

/-- The block's state (10_state.md), and after it the model's own fields. -/
structure State where
  /-- STATUS (R28) -/
  status : Status
  /-- IN_LEN.LEN (R26) -/
  inLen  : BitVec 17
  /-- OUT_LEN.LEN (R27) -/
  outLen : BitVec 18
  /-- CAP.IN_CAP (R29): the parameter IN_CAP, which nothing changes -/
  cap    : BitVec 17
  /-- IN by index (R24): the bytes the host has written since reset -/
  inBuf  : Memory
  /-- OUT by index (R25): the bytes the core has written since reset -/
  outBuf : Memory
  /-- CUR_OP (R34) -/
  curOp  : BitVec 2
  /-- ILL (R34) -/
  ill    : Bool
  /-- N (R34), the latched input length -/
  n      : BitVec 17
  /-- IDX (R34), the next input byte -/
  idx    : BitVec 17
  /-- OUT_PTR (R34), the next output byte -/
  outPtr : BitVec 18
  /-- PHASE (R34) -/
  phase  : Phase
  /-- PAIR_SR of hex_decoder (R36) -/
  pairSr : BitVec 8
  /-- HALF of hex_decoder (R36): true is 1, the next character is the low one of its pair -/
  half   : Bool
  /-- SR40 of base32_encoder (R37) -/
  sr40   : BitVec 40
  /-- LOADS of base32_encoder (R37) -/
  loads  : BitVec 3
  /-- SYMS of base32_encoder (R37) -/
  syms   : BitVec 4
  /-- The response to the last access (R52); none when the last event was no access (log 16) -/
  response : Option Response
  /-- MODEL: the events still to come, the next one first (R64; log 1) -/
  agenda : List Turn
  /-- MODEL: the core steps that fall before the next event (R64; log 1) -/
  gap    : Nat
  /-- MODEL: how many unspecified OUT bytes have been read (R40; log 7) -/
  draws  : Nat
  /-- MODEL: how many resets there have been since power-on (U5; log 6) -/
  epoch  : Nat
  deriving DecidableEq, Repr

/-- Why the model stops. Every one is SAFE: the model stops where the hardware goes on. -/
inductive Fault where
  /-- Raised by a datapath step that consumes IN[i] when the host has not written it since reset: U6, D31 (hazard H5).
  SAFE: no claim about what the command then gives can be proved. -/
  | unwrittenInput (i : Nat)
  /-- Raised by a datapath step that would read IN[i] with i >= IN_CAP: no such byte (R24, R70). SAFE, and no state that
  meets `Inv` raises it. -/
  | inputOverrun (i : Nat)
  /-- Raised by a datapath step that would write OUT[j] with j >= OUT_CAP: no such byte (R25, R70). SAFE, and no state
  that meets `Inv` raises it. -/
  | outputOverrun (j : Nat)
  /-- Raised by a core step with PHASE = RUN and CUR_OP = 3, which R105 says is never reached. SAFE, and no state that
  meets `Inv` raises it. -/
  | noUnit
  deriving DecidableEq, Repr

/-- Why an instruction has no meaning. -/
inductive Refusal where
  /-- Raised by exec for an instruction not modelled yet. SAFE. No arm raises it in this model. -/
  | notModelled (mnemonic : String)
  deriving DecidableEq, Repr

/-- The state after power-on reset: the values of R39. The fields R39 leaves unspecified have the values of log 8; the
model's own fields those of log 1, 6, 7 and 16; CAP holds the parameter IN_CAP. -/
def State.reset : State where
  status := { state := .idle, errCode := .none, errInfo := 0#8, op := 0#2 }
  inLen := 0#17
  outLen := 0#18
  cap := Config.inCap
  inBuf := []
  outBuf := []
  curOp := 0#2
  ill := false
  n := 0#17
  idx := 0#17
  outPtr := 0#18
  phase := .check
  pairSr := 0#8
  half := false
  sr40 := 0#40
  loads := 0#3
  syms := 0#4
  response := none
  agenda := []
  gap := 0
  draws := 0
  epoch := 0

end Sys2Proof.Machine
end

