-- ==== Sys2Proof/Machine/Flags.lean ====
section
/-! DEFINITION. The flags, which are fields of STATUS (spec/10_state.md R28, R41): their codes, the STATUS word, and the
command-level checks that decide between running and failing (spec/60_exceptions.md R205). -/

namespace Sys2Proof.Machine

/-- The code of STATUS.STATE (R28). -/
def stateBits : CmdState → BitVec 2
  | .idle => 0#2
  | .busy => 1#2
  | .done => 2#2
  | .error => 3#2

/-- The code of STATUS.ERR_CODE (R28, R201 to R204). -/
def errBits : ErrCode → BitVec 3
  | .none => 0#3
  | .invalidCharacter => 1#3
  | .invalidLength => 2#3
  | .capacityExceeded => 3#3
  | .illegalOp => 4#3

/-- The STATUS word (R28): OP in 17:16, ERR_INFO in 15:8, ERR_CODE in 6:4, STATE in 1:0, and the reserved bits 0. -/
def statusWord (st : Status) : Word :=
  0#14 ++ st.op ++ st.errInfo ++ 0#1 ++ errBits st.errCode ++ 0#2 ++ stateBits st.state

/-- ILL (R102): the word is reserved. -/
def illegalWord (w : Word) : Bool := w.extractLsb' 2 30 != 0#30 || w.extractLsb' 0 2 == 3#2

/-- The command-level checks of R205, in that order; `none` when the command may run. -/
def check (ill : Bool) (len : BitVec 17) (cap : BitVec 17) : Option (ErrCode × Byte) :=
  if ill then some (.illegalOp, 0#8)
  else if len > cap then some (.capacityExceeded, 0#8)
  else none

end Sys2Proof.Machine
end

