-- ==== Sys2Proof/Machine/Ops.lean ====
section
/-! DEFINITION. The shared operations: bytes of a buffer, the reset event (R230), acceptance (R102), completion (R106)
and error entry (R200). These four are the only events that write the flags (R41). -/

namespace Sys2Proof.Machine

/-- What one step answers. -/
abbrev Result := Host.Outcome State Fault Refusal

/-- Go on from a next state; a fault or a refusal ends. -/
def andThen (r : Result) (k : State → Result) : Result :=
  match r with
  | .next s => k s
  | .fault f => .fault f
  | .refused f => .refused f

/-- The byte listed at index `a`, or `none`: nothing has put a known value there (an unlisted byte reads as no value). -/
def Memory.read : Memory → Nat → Option Byte
  | [], _ => none
  | (k, b) :: m, a => if k = a then some b else Memory.read m a

/-- Put byte `v` at index `a`, keeping the indices strictly rising. -/
def Memory.write : Memory → Nat → Byte → Memory
  | [], a, v => [(a, v)]
  | (k, b) :: m, a, v =>
    if a < k then (a, v) :: (k, b) :: m
    else if a = k then (a, v) :: m
    else (k, b) :: Memory.write m a v

/-- The canonical form: indices strictly rising. An unlisted byte reads as no value, so no listed byte equals it. -/
def Memory.wf : Memory → Bool
  | [] => true
  | [_] => true
  | c :: d :: m => decide (c.1 < d.1) && Memory.wf (d :: m)

/-- Every listed index is below `c`. -/
def Memory.below (m : Memory) (c : Nat) : Bool := m.all (fun e => decide (e.1 < c))

/-- OUT_CAP = 2 * IN_CAP (R7). -/
def outCap (s : State) : Nat := 2 * s.cap.toNat

/-- What IN[i] holds: the byte the host has written, or, while it has written none since reset, the draw made for that
byte at reset (R24, U5; log 6). -/
def inValue (s : State) (i : Nat) : Byte := (Memory.read s.inBuf i).getD (Config.inDraw s.epoch i)

/-- The defined value of OUT[j] (R40): only in state DONE and below OUT_LEN. -/
def outDefined (s : State) (j : Nat) : Option Byte :=
  if s.status.state = .done ∧ j < s.outLen.toNat then Memory.read s.outBuf j else none

/-- The STATUS of a command accepted with word `w` (R102). -/
def acceptedStatus (w : Word) : Status :=
  { state := .busy, errCode := .none, errInfo := 0#8, op := w.extractLsb' 0 2 }

/-- Acceptance of the command word `w` (R102), one atomic step. It is also how the error state is left (R209). -/
def accept (w : Word) (s : State) : State :=
  { s with
    status := acceptedStatus w
    curOp := w.extractLsb' 0 2
    ill := illegalWord w
    n := s.inLen
    idx := 0#17
    outPtr := 0#18
    phase := .check
    outLen := 0#18 }

/-- A command request (R101): accepted unless a command is running; while BUSY it is ignored without a trace (R104). -/
def request (w : Word) (s : State) : State :=
  if s.status.state = .busy then s else accept w s

/-- Completion (R106): the result is OUT[0 .. OUT_PTR-1]. -/
def complete (s : State) : State :=
  { s with
    outLen := s.outPtr
    status := { s.status with state := .done, errCode := .none, errInfo := 0#8 } }

/-- Error entry (R200), the one way a command takes an error: the code, the info byte and STATE = ERROR. OUT_LEN stays 0,
and nothing else is saved. The internal registers, which R38 and U4 leave unspecified once the command has ended, keep their last
values: the model's choice (log 21). -/
def raise (e : ErrCode) (info : Byte) (s : State) : State :=
  { s with status := { s.status with state := .error, errCode := e, errInfo := info } }

/-- The reset event (R230, R231): every piece of the block's state takes its value of R39, the parameter IN_CAP stays, a
running command is abandoned, and IN and OUT hold no known byte. The inputs still to come stay to come; a new epoch begins, so
that the unwritten bytes of IN are drawn anew (U5). -/
def resetBlock (s : State) : State :=
  { State.reset with
    cap := s.cap
    agenda := s.agenda
    gap := s.gap
    draws := s.draws
    epoch := s.epoch + 1 }

end Sys2Proof.Machine
end

