-- ==== Sys2Proof/Machine/Operands.lean ====
section
/-! DEFINITION. The implicit operands of a command: the input bytes IN[0 .. N-1] and the output bytes OUT[0 ..]
(spec/30_encoding.md R82, spec/20_memory.md R70), and the bit fields the three units cut (R8). -/

namespace Sys2Proof.Machine

/-- The high nibble b[7:4]. -/
def hiNibble (b : Byte) : Nibble := b.extractLsb' 4 4

/-- The low nibble b[3:0]. -/
def loNibble (b : Byte) : Nibble := b.extractLsb' 0 4

/-- `IN[i]` as a datapath step reads it (R11, R70): the model faults on a byte not written since reset (U6, D31; log 5)
and at an index that IN does not have (log 11). -/
def withInput (s : State) (i : Nat) (k : Byte → Result) : Result :=
  if i < s.cap.toNat then
    match Memory.read s.inBuf i with
    | some b => k b
    | none => .fault (.unwrittenInput i)
  else .fault (.inputOverrun i)

/-- `OUT[OUT_PTR] <- v` and `OUT_PTR <- OUT_PTR + 1` (R11, R70); the model faults at an index that OUT does not have
(log 11). -/
def emit (v : Byte) (s : State) (k : State → Result) : Result :=
  if s.outPtr.toNat < outCap s then
    k { s with outBuf := Memory.write s.outBuf s.outPtr.toNat v, outPtr := s.outPtr + 1#18 }
  else .fault (.outputOverrun s.outPtr.toNat)

/-- The pair-to-byte shift `PAIR_SR[3:0] ++ v` (R36). -/
def shiftPair (sr : BitVec 8) (v : Nibble) : BitVec 8 := sr.extractLsb' 0 4 ++ v

/-- The load shift `SR40[31:0] ++ b` (R165). -/
def shiftLoad (sr : BitVec 40) (b : Byte) : BitVec 40 := sr.extractLsb' 0 32 ++ b

/-- The top symbol `SR40[39:35]` (R166). -/
def topSymbol (sr : BitVec 40) : Symbol := sr.extractLsb' 35 5

/-- The extract shift `SR40[34:0] ++ 0b00000` (R166). -/
def shiftSymbol (sr : BitVec 40) : BitVec 40 := sr.extractLsb' 0 35 ++ 0#5

/-- The number of consumed characters of DECODE_HEX, M = 2 * (N div 2) (R146). -/
def consumed (n : Nat) : Nat := 2 * (n / 2)

end Sys2Proof.Machine
end

