-- ==== Sys2Proof/Machine/Tables.lean ====
section
/-! DEFINITION. The constant look-up ROMs (spec/10_state.md R30 to R33). They are no part of the changing state: nothing
writes them, and no window offset reaches them (R33). The character codes are ASCII (R10; log 13). -/

namespace Sys2Proof.Machine

/-- The byte row of R30: the characters `0123456789ABCDEF`. -/
def hexTable : List Byte :=
  [0x30#8, 0x31#8, 0x32#8, 0x33#8, 0x34#8, 0x35#8, 0x36#8, 0x37#8, 0x38#8, 0x39#8] ++
  [0x41#8, 0x42#8, 0x43#8, 0x44#8, 0x45#8, 0x46#8]

/-- HEX_LUT[k] (R30). -/
def hexLut (k : Nibble) : Byte := hexTable.getD k.toNat 0#8

/-- DEC_LUT[c] (R31): `some v` is the entry valid(v), `none` the entry invalid. -/
def decLut (c : Byte) : Option Nibble :=
  if 0x30#8 ≤ c ∧ c ≤ 0x39#8 then some ((c - 0x30#8).setWidth 4)
  else if 0x41#8 ≤ c ∧ c ≤ 0x46#8 then some ((c - 0x41#8 + 10#8).setWidth 4)
  else if 0x61#8 ≤ c ∧ c ≤ 0x66#8 then some ((c - 0x61#8 + 10#8).setWidth 4)
  else none

/-- The byte row of R32: the characters `ABCDEFGHIJKLMNOPQRSTUVWXYZ234567`. -/
def b32Table : List Byte :=
  [0x41#8, 0x42#8, 0x43#8, 0x44#8, 0x45#8, 0x46#8, 0x47#8, 0x48#8, 0x49#8, 0x4A#8, 0x4B#8, 0x4C#8, 0x4D#8] ++
  [0x4E#8, 0x4F#8, 0x50#8, 0x51#8, 0x52#8, 0x53#8, 0x54#8, 0x55#8, 0x56#8, 0x57#8, 0x58#8, 0x59#8, 0x5A#8] ++
  [0x32#8, 0x33#8, 0x34#8, 0x35#8, 0x36#8, 0x37#8]

/-- B32_LUT[k] (R32). -/
def b32Lut (k : Symbol) : Byte := b32Table.getD k.toNat 0#8

end Sys2Proof.Machine
end

