-- ==== Sys2Proof/Machine/Base32Encoder.lean ====
section
/-! DEFINITION. base32_encoder: the datapath of ENCODE_BASE32 (spec/43_base32_encoder.md). -/

namespace Sys2Proof.Machine

/-- The counters after one more symbol (R166): at the eighth the group is done. -/
def countSymbol (s : State) : State :=
  if s.syms + 1#4 = 8#4 then { s with loads := 0#3, syms := 0#4 } else { s with syms := s.syms + 1#4 }

/-- R166: extract the top symbol of a loaded group, or complete. -/
def base32Extract (s : State) : Result :=
  if s.loads = 5#3 then
    emit (b32Lut (topSymbol s.sr40)) s fun s1 =>
      .next (countSymbol { s1 with sr40 := shiftSymbol s.sr40 })
  else .next (complete s)

/-- R165: a length that is no multiple of 5 raises INVALID_LENGTH(5) before anything is written; else load a byte of the
group, or go to the extract part. -/
def base32EncoderStep (s : State) : Result :=
  if s.n.toNat % 5 ≠ 0 then .next (raise .invalidLength 5#8 s)
  else if s.loads < 5#3 ∧ s.idx < s.n then
    withInput s s.idx.toNat fun b =>
      .next { s with sr40 := shiftLoad s.sr40 b, idx := s.idx + 1#17, loads := s.loads + 1#3 }
  else base32Extract s

end Sys2Proof.Machine
end

