-- ==== Sys2Proof/Machine/HexDecoder.lean ====
section
/-! DEFINITION. hex_decoder: the datapath of DECODE_HEX (spec/42_hex_decoder.md). -/

namespace Sys2Proof.Machine

/-- The accepted character of nibble `v` (R146): it shifts in, and after the low character of a pair the byte goes out. -/
def hexDecoderTake (v : Nibble) (s : State) : Result :=
  let s1 := { s with pairSr := shiftPair s.pairSr v, half := !s.half, idx := s.idx + 1#17 }
  if s.half then emit (shiftPair s.pairSr v) s1 .next else .next s1

/-- R146: one character of a consumed pair; an invalid one raises INVALID_CHARACTER with that byte (R145, R201); at
IDX = M the command completes, so an odd last character is never read (R144). -/
def hexDecoderStep (s : State) : Result :=
  if s.idx.toNat < consumed s.n.toNat then
    withInput s s.idx.toNat fun c =>
      match decLut c with
      | none => .next (raise .invalidCharacter c s)
      | some v => hexDecoderTake v s
  else .next (complete s)

end Sys2Proof.Machine
end

