-- ==== Sys2Proof/Machine/HexEncoder.lean ====
section
/-! DEFINITION. hex_encoder: the datapath of ENCODE_HEX (spec/41_hex_encoder.md). -/

namespace Sys2Proof.Machine

/-- R124: one input byte gives two characters, the high nibble's first; at IDX = N the command completes. -/
def hexEncoderStep (s : State) : Result :=
  if s.idx < s.n then
    withInput s s.idx.toNat fun b =>
      emit (hexLut (hiNibble b)) s fun s1 =>
        emit (hexLut (loNibble b)) s1 fun s2 =>
          .next { s2 with idx := s2.idx + 1#17 }
  else .next (complete s)

end Sys2Proof.Machine
end

