-- ==== Sys2Proof/Machine/CoreStep.lean ====
section
/-! DEFINITION. The core agent: one core step (spec/40_command.md R105), and the core steps that fall between two
accesses of the host (spec/20_memory.md R64). -/

namespace Sys2Proof.Machine

/-- The step of PHASE = CHECK (R105): the first check that fails raises its error (R205), else the datapath starts from
cleared registers. -/
def checkStep (s : State) : State :=
  match check s.ill s.n s.cap with
  | some (e, info) => raise e info s
  | none => { s with phase := .run, half := false, pairSr := 0#8, loads := 0#3, syms := 0#4, sr40 := 0#40 }

/-- The step of PHASE = RUN (R105): one step of the unit CUR_OP selects. CUR_OP = 3 never gets here (R105; log 11). -/
def runStep (s : State) : Result :=
  if s.curOp = 0#2 then hexEncoderStep s
  else if s.curOp = 1#2 then hexDecoderStep s
  else if s.curOp = 2#2 then base32EncoderStep s
  else .fault .noUnit

/-- One core step (R105). The core takes steps only while BUSY (R100). -/
def coreStep (s : State) : Result :=
  if s.status.state = .busy then
    match s.phase with
    | .check => .next (checkStep s)
    | .run => runStep s
  else .next s

/-- `k` core steps. Once the command has ended the core takes no further step (R200, R100). -/
def coreRun : Nat → State → Result
  | 0, s => .next s
  | k + 1, s => andThen (coreStep s) (coreRun k)

/-- The core steps that fall before the host's next access (R64; log 1): `gap` of them, which are thereby used up. -/
def settle (s : State) : Result := coreRun s.gap { s with gap := 0 }

/-- Core steps enough for any command on `n` input bytes: at least N + 2 and 13 * (N div 5) + 2 (R107). -/
def enoughSteps (n : Nat) : Nat := 3 * n + 2

end Sys2Proof.Machine
end

