-- ==== Sys2Proof/Machine/Commands.lean ====
section
/-! DEFINITION. The meanings of the three commands: the accepted write of the command's word to CMD (R101, R102),
followed by the core steps that fall before the host's next access (R64, R105). With enough of them the command has ended as
its function says (R107, R108); with fewer it is still BUSY (log 1). While a command runs the request is ignored (R104). -/

namespace Sys2Proof.Machine

/-- ENCODE_HEX (R120): request OP = 0; hex_encoder does the rest (R124). -/
def execEncodeHex (s : State) : Result := settle (request (encode .encodeHex) s)

/-- DECODE_HEX (R140): request OP = 1; hex_decoder does the rest (R146). -/
def execDecodeHex (s : State) : Result := settle (request (encode .decodeHex) s)

/-- ENCODE_BASE32 (R160): request OP = 2; base32_encoder does the rest (R165, R166). -/
def execEncodeBase32 (s : State) : Result := settle (request (encode .encodeBase32) s)

end Sys2Proof.Machine
end

