-- ==== Sys2Proof/Machine/Dispatch.lean ====
section
/-! DEFINITION. One arm per constructor of Instr. -/

namespace Sys2Proof.Machine

def exec (i : Instr) (s : State) : Host.Outcome State Fault Refusal :=
  match i with
  | .encodeHex => Sys2Proof.Machine.execEncodeHex s
  | .decodeHex => Sys2Proof.Machine.execDecodeHex s
  | .encodeBase32 => Sys2Proof.Machine.execEncodeBase32 s

end Sys2Proof.Machine
end

