-- ==== Sys2Proof/Machine/HostPort.lean ====
section
/-! DEFINITION. The host's port: the window, its regions, and what an access does (spec/20_memory.md R50 to R57). -/

namespace Sys2Proof.Machine

/-- The first offset of INBUF (R51). -/
def inBase : Nat := 0x10000

/-- The first offset of OUTBUF (R51). -/
def outBase : Nat := 0x20000

/-- The offset of CMD, and below it those of the other registers (R22). -/
def cmdOffset : Offset := 0x00000#18
def statusOffset : Offset := 0x00004#18
def inLenOffset : Offset := 0x00008#18
def outLenOffset : Offset := 0x0000C#18
def capOffset : Offset := 0x00010#18

/-- The offset of IN[i], for i < 65536 (R51), and of `IN+i` in a host statement (R86). R52 has 18-bit offsets only: of
`i >= 0x30000`, which `Stmt.wf` refuses, the offset is taken modulo 2^18, the model's choice (log 14). -/
def inOffset (i : Nat) : Offset := BitVec.ofNat 18 (inBase + i)

/-- The offset of OUT[j], for j < 131072 (R51), and of `OUT+j` in a host statement (R86). R52 has 18-bit offsets only: of
`j >= 0x20000`, which `Stmt.wf` refuses, the offset is taken modulo 2^18, the model's choice (log 14). -/
def outOffset (j : Nat) : Offset := BitVec.ofNat 18 (outBase + j)

/-- Where the platform puts a window offset (R50; log 12). -/
def hostAddress (a : Offset) : Nat := Config.windowBase + a.toNat

/-- The window offset of a platform address, if it is in the window (R50). -/
def windowOffset (p : Nat) : Option Offset :=
  if Config.windowBase ≤ p ∧ p < Config.windowBase + 2 ^ 18 then some (BitVec.ofNat 18 (p - Config.windowBase)) else none

/-- The width and alignment check `check(addr, n)` (R53, R59). -/
def widthOk (addr : Offset) (n : Nat) : Bool :=
  if addr.toNat ≤ 0x0FFFF then n == 4 && addr.toNat % 4 == 0 else n == 1

/-- The offset of an access. -/
def accessAddr : Access → Offset
  | .read1 a => a
  | .read4 a => a
  | .write1 a _ => a
  | .write4 a _ => a

/-- The width of an access in bytes (R52). -/
def accessWidth : Access → Nat
  | .read1 _ => 1
  | .read4 _ => 4
  | .write1 _ _ => 1
  | .write4 _ _ => 4

/-- A register's value as a read returns it (R54): CMD and every reserved offset read 0 (D36, D4). -/
def regRead (a : Offset) (s : State) : Word :=
  if a = statusOffset then statusWord s.status
  else if a = inLenOffset then s.inLen.setWidth 32
  else if a = outLenOffset then s.outLen.setWidth 32
  else if a = capOffset then s.cap.setWidth 32
  else 0#32

/-- A register write (R54): CMD is a command request (R101), IN_LEN takes data[16:0] unless BUSY (R26, R104), and every
other write is ignored (D37). -/
def regWrite (a : Offset) (v : Word) (s : State) : State :=
  if a = cmdOffset then request v s
  else if a = inLenOffset ∧ s.status.state ≠ .busy then { s with inLen := v.extractLsb' 0 17 }
  else s

/-- A buffer read: IN[i] (R55), OUT[j] as R40 allows (R56), and 0 in the tails. An OUT byte without a defined value is a
fresh draw, which uses up one draw (U2; log 7). -/
def bufRead (a : Offset) (s : State) : State :=
  if a.toNat < outBase then
    let i := a.toNat - inBase
    { s with response := some (.data8 (if i < s.cap.toNat then inValue s i else 0#8)) }
  else
    let j := a.toNat - outBase
    if j < outCap s then
      match outDefined s j with
      | some b => { s with response := some (.data8 b) }
      | none => { s with response := some (.data8 (Config.outDraw s.draws)), draws := s.draws + 1 }
    else { s with response := some (.data8 0#8) }

/-- A buffer write: IN[i] unless BUSY (R55, R104); the tails and OUT ignore it (R55, R56). -/
def bufWrite (a : Offset) (v : Byte) (s : State) : State :=
  let i := a.toNat - inBase
  if a.toNat < outBase ∧ i < s.cap.toNat ∧ s.status.state ≠ .busy then
    { s with inBuf := Memory.write s.inBuf i v }
  else s

/-- One host access (R52): BUS_ERROR with no state change if its width or alignment is wrong (R53, R206; log 10), else by
its region, with the response OK. -/
def hostAccess (a : Access) (s : State) : State :=
  if widthOk (accessAddr a) (accessWidth a) then
    match a with
    | .read4 addr => { s with response := some (.data32 (regRead addr s)) }
    | .read1 addr => bufRead addr s
    | .write4 addr v => { regWrite addr v s with response := some .ok }
    | .write1 addr v => { bufWrite addr v s with response := some .ok }
  else { s with response := some .busError }

/-- The data lines of a response (R52, R57): upper lines 0 on a 1-byte read, all lines 0 with BUS_ERROR; a write has none,
written here as 0. -/
def responseData : Response → Word
  | .ok => 0#32
  | .data8 v => v.setWidth 32
  | .data32 v => v
  | .busError => 0#32

/-- An event from outside (R64, R230). -/
def hostEvent (e : Event) (s : State) : State :=
  match e with
  | .access a => hostAccess a s
  | .reset => resetBlock s
  | .pause => { s with response := none }

end Sys2Proof.Machine
end

