-- ==== Sys2Proof/Machine/Turn.lean ====
section
/-! DEFINITION. One turn of the two agents: the next event from outside, then the core steps that fall before the event
after it (spec/20_memory.md R64, spec/40_command.md R100). A command reaches the block as a write to CMD (R101). -/

namespace Sys2Proof.Machine

/-- The command word an event brings to CMD, if it brings one (R80, R101). -/
def fetchCommand : Event → Option Word
  | .access (.write4 a w) => if a = cmdOffset then some w else none
  | _ => none

/-- A CMD write: a legal word runs its command; a reserved word is accepted and ends in ILLEGAL_OP (R84, R204). -/
def commandTurn (w : Word) (s : State) : Result :=
  match decode w with
  | .ok i => exec i { s with response := some .ok }
  | .error _ => settle (request w { s with response := some .ok })

/-- An event and the core steps after it. -/
def takeTurn (e : Event) (s : State) : Result :=
  match fetchCommand e with
  | some w => commandTurn w s
  | none => settle (hostEvent e s)

end Sys2Proof.Machine
end

