-- ==== Sys2Proof/Machine/Step.lean ====
section
/-! DEFINITION. One step of the machine, and the placing of a command as its next event. -/

namespace Sys2Proof.Machine

/-- One step: the next event of the agenda with the core steps after it (R64). With no event to come the core goes on
alone, one core step at a time: its step is eventually taken (R107, U3; log 3); while no command runs nothing happens (R100,
R232). -/
def step (s : State) : Host.Outcome State Fault Refusal :=
  match s.agenda with
  | [] => coreStep s
  | t :: rest => takeTurn t.event { s with agenda := rest, gap := t.gap }

/-- The write of the command word `w` (its bits above `nbits` 0) to CMD becomes the next event, followed by core steps
enough for the command to end (R107; log 2). A block that is BUSY would ignore it (R104), so it is made idle first (log 20). The one
format has 32 bits (R80), and of a word of more than 32 bits, which `decodeTableWord` calls no command, the low 32 bits are
placed and run: the model's choice (log 19). -/
def State.withFetchWord (s : State) (nbits w : Nat) : State :=
  { s with
    status := if s.status.state = .busy then State.reset.status else s.status
    agenda :=
      { event := .access (.write4 cmdOffset (BitVec.ofNat 32 (w % 2 ^ nbits))), gap := enoughSteps s.inLen.toNat } :: s.agenda }

end Sys2Proof.Machine
end

