-- ==== Sys2Proof/Machine/HostProgram.lean ====
section
/-! DEFINITION. Host programs over the block: the meaning of the statements of R86, the pseudo-instructions of R87 and the
transactions of R88 (spec/30_encoding.md; D24: not a hardware fact; log 14). The block underneath moves by `step` alone. -/

namespace Sys2Proof.Machine

/-- The offset of a register (R22). -/
def regOffset : Reg → Offset
  | .cmd => cmdOffset
  | .status => statusOffset
  | .inLen => inLenOffset
  | .outLen => outLenOffset
  | .cap => capOffset

/-- A host-visible fault of the host's program (R52, R206): the place of the statement whose access was answered BUS_ERROR, and
that access. -/
structure HostFault where
  pc     : Nat
  access : Access
  deriving DecidableEq, Repr

/-- A host program at work: the block, the program, the place in it, the host's variables, whether it has stopped, and the
faults recorded so far, the newest first (R206; log 10). -/
structure HostMachine where
  block  : State
  prog   : List Stmt
  pc     : Nat
  vars   : List (Nat × Word)
  ended  : Bool
  faults : List HostFault
  deriving DecidableEq, Repr

/-- A host variable; one that no statement has set reads 0 (log 14). -/
def getVar (vars : List (Nat × Word)) (x : Nat) : Word :=
  match vars with
  | [] => 0#32
  | (y, v) :: rest => if y = x then v else getVar rest x

/-- The value operand as a number; a mnemonic stands for its CMD32 word (R86). -/
def valNat (vars : List (Nat × Word)) : Val → Nat
  | .num v => v
  | .op i => (encode i).toNat
  | .var x => (getVar vars x).toNat

/-- The value operand of a write as 32 bits. A number of 2^32 or more, which `Stmt.wf` refuses, keeps its low 32 bits: the model's
choice (log 14). -/
def evalVal (vars : List (Nat × Word)) (v : Val) : Word := BitVec.ofNat 32 (valNat vars v)

/-- The bus access of a statement (R86), or `none` for a host-only statement. -/
def stmtAccess (vars : List (Nat × Word)) : Stmt → Option Access
  | .w32 r v => some (.write4 (regOffset r) (evalVal vars v))
  | .r32 r _ => some (.read4 (regOffset r))
  | .w8in i v => some (.write1 (inOffset i) ((evalVal vars v).setWidth 8))
  | .r8in i _ => some (.read1 (inOffset i))
  | .w8out j v => some (.write1 (outOffset j) ((evalVal vars v).setWidth 8))
  | .r8out j _ => some (.read1 (outOffset j))
  | .r8reg r _ => some (.read1 (regOffset r))
  | .label _ => none
  | .jeq _ _ _ _ _ => none
  | .stop => none

/-- The variable a statement reads into (R86). -/
def stmtTarget : Stmt → Option Nat
  | .r32 _ x => some x
  | .r8in _ x => some x
  | .r8out _ x => some x
  | .r8reg _ x => some x
  | .w32 _ _ => none
  | .w8in _ _ => none
  | .w8out _ _ => none
  | .label _ => none
  | .jeq _ _ _ _ _ => none
  | .stop => none

/-- The place of a label in a program, from place `at0` on (R86). Of a label given twice, which R86 does not speak of and
`HostProgram.wf` refuses, it is the first place: the model's choice (log 14). -/
def labelPlace (l : Nat) : List Stmt → Nat → Option Nat
  | [], _ => none
  | t :: p, at0 => if t = .label l then some at0 else labelPlace l p (at0 + 1)

/-- The bit field var[hi:lo] (R86). Of a field the variable does not have, which R86 does not speak of and `Stmt.wf` refuses, a
reversed one (hi < lo) is 0 and the bits above 31 are 0: the model's choice (log 14). -/
def varField (v : Word) (hi lo : Nat) : Nat := v.toNat / 2 ^ lo % 2 ^ (hi + 1 - lo)

/-- The faults after an access: one answered BUS_ERROR is recorded (R206). -/
def recordFault (h : HostMachine) (a : Access) (b : State) : List HostFault :=
  if b.response = some .busError then { pc := h.pc, access := a } :: h.faults else h.faults

/-- The host after its access: the data lines go into the statement's variable, a BUS_ERROR is recorded, and the program goes
on, as program P3 does. -/
def afterAccess (h : HostMachine) (t : Stmt) (a : Access) (b : State) : HostMachine :=
  { h with
    block := b
    pc := h.pc + 1
    vars := match stmtTarget t, b.response with
      | some x, some r => (x, responseData r) :: h.vars
      | _, _ => h.vars
    faults := recordFault h a b }

/-- One statement of the host's program; `gap` core steps fall after its access (R64). A jump to a label that the program
does not have ends it, and so does the program's end (log 14). `JEQ` compares the field and the value as numbers, so a number
too wide for the field equals no field; that R86 means numbers, of any size, is the model's choice (log 14). -/
def hostStep (gap : Nat) (h : HostMachine) : Host.Outcome HostMachine Fault Refusal :=
  if h.ended then .next h
  else match h.prog[h.pc]? with
    | none => .next { h with ended := true }
    | some .stop => .next { h with ended := true }
    | some (.label _) => .next { h with pc := h.pc + 1 }
    | some (.jeq x hi lo v l) =>
      if varField (getVar h.vars x) hi lo = valNat h.vars v then
        match labelPlace l h.prog 0 with
        | some k => .next { h with pc := k }
        | none => .next { h with ended := true }
      else .next { h with pc := h.pc + 1 }
    | some t =>
      match stmtAccess h.vars t with
      | none => .next { h with pc := h.pc + 1 }
      | some a =>
        match step { h.block with agenda := { event := .access a, gap := gap } :: h.block.agenda } with
        | .next b => .next (afterAccess h t a b)
        | .fault f => .fault f
        | .refused r => .refused r

/-- `WAIT` with the fresh label `w` and the variable `x` (R87). -/
def waitStmts (w x : Nat) : List Stmt := [.label w, .r32 .status x, .jeq x 1 0 (.num 1) w]

/-- `RUN <op>` (R87). -/
def runStmts (v : Val) (w x : Nat) : List Stmt := .w32 .cmd v :: waitStmts w x

/-- `W8 IN+k, b` for the bytes `bs`, from place `k` on. -/
def writeInStmts : Nat → List Val → List Stmt
  | _, [] => []
  | k, b :: bs => .w8in k b :: writeInStmts (k + 1) bs

/-- `LOADIN b0, b1, ..` (R87). -/
def loadInStmts (bs : List Val) : List Stmt := writeInStmts 0 bs ++ [.w32 .inLen (.num bs.length)]

/-- `LOADIN "<text>"`: the codes of the characters, one byte each (R87, R10). R87 speaks of ASCII bytes alone: of any other
character the model takes the code point, and of one above 0xFF, which `Stmt.wf` refuses, the write keeps the low 8 bits; this is
the model's choice (log 14). -/
def loadTextStmts (text : List Char) : List Stmt := loadInStmts (text.map (fun c => .num c.toNat))

/-- `READOUT k -> o` with the length in the variable `len` and o[j] in the variable `o + j` (R87). -/
def readOutStmts (k len o : Nat) : List Stmt :=
  .r32 .outLen len :: (List.range k).map (fun j => .r8out j (o + j))

/-- A transaction `<dir><n>@<offset>=<data>` (R88). -/
structure Transaction where
  write  : Bool
  bytes  : Nat
  offset : Offset
  data   : Word
  deriving DecidableEq, Repr

/-- The transaction of an access; for a read the data is the value returned (R88). -/
def transactionOf (a : Access) (r : Response) : Transaction where
  write := match a with
    | .write1 _ _ => true
    | .write4 _ _ => true
    | .read1 _ => false
    | .read4 _ => false
  bytes := accessWidth a
  offset := accessAddr a
  data := match a with
    | .write1 _ v => v.setWidth 32
    | .write4 _ v => v
    | .read1 _ => responseData r
    | .read4 _ => responseData r

/-- `k` upper-case hex digits of `v`. -/
def hexDigits : Nat → Nat → List Char
  | 0, _ => []
  | k + 1, v => hexDigits k (v / 16) ++ [Char.ofNat (hexLut (BitVec.ofNat 4 v)).toNat]

/-- A transaction written out: 5 hex digits of offset, 2 or 8 of data (R88). -/
def transactionText (t : Transaction) : List Char :=
  (if t.write then 'W' else 'R') :: Char.ofNat (0x30 + t.bytes) :: '@' ::
    (hexDigits 5 t.offset.toNat ++ '=' :: hexDigits (2 * t.bytes) t.data.toNat)

end Sys2Proof.Machine
end

