-- ==== Sys2Proof/Machine/Functional.lean ====
section
/-! DEFINITION. The functional definitions of the three commands, normative for results (spec/00_scope.md R12):
`hexEncode` (R121), `hexDecode` (R141), `base32Encode` (R161), and a command as a function, `execute` (R108). -/

namespace Sys2Proof.Machine

/-- How a command ends (R108): a result, or an error with its info byte. -/
inductive CmdOutcome where
  | done (seq : List Byte)
  | error (code : ErrCode) (info : Byte)
  deriving DecidableEq, Repr

/-- R121: for each byte, the character of its high nibble and then that of its low nibble. -/
def hexEncode : List Byte → List Byte
  | [] => []
  | b :: s => hexLut (hiNibble b) :: hexLut (loNibble b) :: hexEncode s

/-- The byte of two nibbles, `(hi << 4) | lo` (R141). -/
def joinNibbles (hi lo : Nibble) : Byte := (hi.setWidth 8 <<< 4) ||| lo.setWidth 8

/-- R141 from the bytes `out` on: pairs left to right, the first invalid byte reported, a last odd character neither
decoded nor checked (R144). -/
def hexDecodeFrom (out : List Byte) : List Byte → CmdOutcome
  | [] => .done out
  | [_] => .done out
  | a :: b :: t =>
    match decLut a with
    | none => .error .invalidCharacter a
    | some hi =>
      match decLut b with
      | none => .error .invalidCharacter b
      | some lo => hexDecodeFrom (out ++ [joinNibbles hi lo]) t

/-- R141. -/
def hexDecode (t : List Byte) : CmdOutcome := hexDecodeFrom [] t

/-- The 40-bit value of a group, the first byte in bits 39:32 (R161). -/
def groupValue (a b c d e : Byte) : BitVec 40 := a ++ b ++ c ++ d ++ e

/-- Symbol j of a group, V[39-5j : 35-5j] (R161). -/
def groupSymbol (v : BitVec 40) (j : Nat) : Symbol := v.extractLsb' (35 - 5 * j) 5

/-- The eight characters of one group, lane 0 first (R161, R168). -/
def groupChars (v : BitVec 40) : List Byte := (List.range 8).map (fun j => b32Lut (groupSymbol v j))

/-- The characters of the whole groups of `s` (the loop of R161). -/
def base32Groups : List Byte → List Byte
  | a :: b :: c :: d :: e :: s => groupChars (groupValue a b c d e) ++ base32Groups s
  | _ => []

/-- R161. -/
def base32Encode (s : List Byte) : CmdOutcome :=
  if s.length % 5 ≠ 0 then .error .invalidLength 5#8 else .done (base32Groups s)

/-- R108: the outcome of the accepted word `w` on an input of length `len` whose bytes are `input` (the first `len` bytes
of IN at acceptance), on a block with IN_CAP = `cap`. -/
def execute (cap : BitVec 17) (w : Word) (len : BitVec 17) (input : List Byte) : CmdOutcome :=
  match check (illegalWord w) len cap with
  | some (e, info) => .error e info
  | none =>
    if w.extractLsb' 0 2 = 0#2 then .done (hexEncode input)
    else if w.extractLsb' 0 2 = 1#2 then hexDecode input
    else base32Encode input

/-- The bytes IN[0 .. k-1]. -/
def inputBytes (s : State) (k : Nat) : List Byte := (List.range k).map (inValue s)

end Sys2Proof.Machine
end

