-- ==== Sys2Proof/Safety.lean ====
section
/-! DEFINITION. What claims are stated in: the invariant of the block, the inputs a command needs written, and the
observations of an outcome. -/

namespace Sys2Proof.Machine

/-- The next state of an outcome, if it is one. -/
def nextState (r : Result) : Option State :=
  match r with
  | .next s => some s
  | .fault _ => none
  | .refused _ => none

/-- IN[0 .. k-1] exist and the host has written each of them since reset (hazard H5, U6). -/
abbrev InputWritten (s : State) (k : Nat) : Prop := ∀ i < k, i < s.cap.toNat ∧ (Memory.read s.inBuf i).isSome = true

/-- OUT[0 .. k-1] each hold a byte the core has written. -/
abbrev OutputStored (s : State) (k : Nat) : Prop := ∀ j < k, (Memory.read s.outBuf j).isSome = true

/-- IN_CAP is a value of its range (R7). -/
abbrev CapInv (s : State) : Prop := 1 ≤ s.cap.toNat ∧ s.cap.toNat ≤ 65536

/-- The buffers are canonical and hold no byte beyond IN_CAP and OUT_CAP (R24, R25). -/
abbrev BufferInv (s : State) : Prop :=
  Memory.wf s.inBuf = true ∧ Memory.below s.inBuf s.cap.toNat = true ∧
  Memory.wf s.outBuf = true ∧ Memory.below s.outBuf (outCap s) = true

/-- What ERR_INFO holds with each code (R28, D27). -/
abbrev ErrorInv (st : Status) : Prop :=
  (st.errCode = .none → st.errInfo = 0#8) ∧
  (st.errCode = .invalidCharacter → decLut st.errInfo = none) ∧
  (st.errCode = .invalidLength → st.errInfo = 5#8) ∧
  (st.errCode = .capacityExceeded → st.errInfo = 0#8) ∧
  (st.errCode = .illegalOp → st.errInfo = 0#8)

/-- The flags and OUT_LEN: an error code exactly in state ERROR, a length only in state DONE, within OUT_CAP and all of
it written; IDLE is only left behind by a reset, so OP is 0 there (R27, R28, R39). -/
abbrev FlagInv (s : State) : Prop :=
  (s.status.errCode = .none ↔ s.status.state ≠ .error) ∧ ErrorInv s.status ∧
  (s.status.state ≠ .done → s.outLen = 0#18) ∧
  (s.status.state = .done → s.outLen.toNat ≤ outCap s ∧ s.status.op ≠ 3#2 ∧ OutputStored s s.outLen.toNat) ∧
  (s.status.state = .idle → s.status.op = 0#2)

/-- hex_encoder between two steps (R125): two characters out for each byte in. -/
abbrev HexEncoderInv (s : State) : Prop :=
  s.idx ≤ s.n ∧ s.outPtr.toNat = 2 * s.idx.toNat

/-- hex_decoder between two steps (R147): a byte out for each pair in, HALF set inside a pair. -/
abbrev HexDecoderInv (s : State) : Prop :=
  s.idx.toNat ≤ consumed s.n.toNat ∧ s.outPtr.toNat = s.idx.toNat / 2 ∧ s.half = decide (s.idx.toNat % 2 = 1)

/-- base32_encoder between two steps (R167): while a group loads, LOADS of its bytes are in and eight characters are out
for each group before it; while it is cut up, SYMS < 8 of its characters are out. -/
abbrev Base32EncoderInv (s : State) : Prop :=
  s.idx ≤ s.n ∧
  (s.n.toNat % 5 ≠ 0 → s.idx = 0#17 ∧ s.outPtr = 0#18 ∧ s.loads = 0#3 ∧ s.syms = 0#4) ∧
  (s.n.toNat % 5 = 0 → s.loads < 5#3 →
    s.syms = 0#4 ∧ s.idx.toNat % 5 = s.loads.toNat ∧ s.outPtr.toNat = 8 * (s.idx.toNat / 5)) ∧
  (s.n.toNat % 5 = 0 → ¬ s.loads < 5#3 →
    s.loads = 5#3 ∧ s.syms < 8#4 ∧ s.idx.toNat % 5 = 0 ∧ s.outPtr.toNat + 8 = 8 * (s.idx.toNat / 5) + s.syms.toNat)

/-- The datapath at work (R105): the checks have passed, and all output so far is stored. -/
structure RunInv (s : State) : Prop where
  legal   : s.ill = false
  fits    : s.n ≤ s.cap
  stored  : OutputStored s s.outPtr.toNat
  hexEnc  : s.curOp = 0#2 → HexEncoderInv s
  hexDec  : s.curOp = 1#2 → HexDecoderInv s
  b32Enc  : s.curOp = 2#2 → Base32EncoderInv s

/-- The common command state while BUSY (R34, R102, R105): the latched values still agree with STATUS.OP and IN_LEN,
which nothing can change; the CHECK step starts from the beginning. -/
structure BusyInv (s : State) : Prop where
  opLatched  : s.curOp = s.status.op
  lenLatched : s.n = s.inLen
  reserved   : s.curOp = 3#2 → s.ill = true
  checking   : s.phase = .check → s.idx = 0#17 ∧ s.outPtr = 0#18
  running    : s.phase = .run → RunInv s

/-- The invariant of the block. -/
structure Inv (s : State) : Prop where
  cap     : CapInv s
  buffers : BufferInv s
  flags   : FlagInv s
  busy    : s.status.state = .busy → BusyInv s

/-- The block's part of the state, without the response and the model's own fields: everything the spec lets an access
without an effect leave alone. -/
abbrev SameBlock (s t : State) : Prop :=
  t.status = s.status ∧ t.inLen = s.inLen ∧ t.outLen = s.outLen ∧ t.cap = s.cap ∧ t.inBuf = s.inBuf ∧ t.outBuf = s.outBuf ∧
  t.curOp = s.curOp ∧ t.ill = s.ill ∧ t.n = s.n ∧ t.idx = s.idx ∧ t.outPtr = s.outPtr ∧ t.phase = s.phase ∧
  t.pairSr = s.pairSr ∧ t.half = s.half ∧ t.sr40 = s.sr40 ∧ t.loads = s.loads ∧ t.syms = s.syms

/-- What no command touches: IN, IN_LEN, CAP, and the inputs still to come, the response and the draws. -/
abbrev SameInput (s t : State) : Prop :=
  t.inBuf = s.inBuf ∧ t.inLen = s.inLen ∧ t.cap = s.cap ∧ t.response = s.response ∧ t.agenda = s.agenda ∧
  t.draws = s.draws ∧ t.epoch = s.epoch

end Sys2Proof.Machine
end

