-- ==== Sys2Proof/Certificates/Slice0/Obligations.lean ====
section
/-! DEFINITION. The statements for the provers. Each docstring names the rule of spec/ it formalises, or says what it rests
on; where a clause is the model's own choice it names the log entry. -/

open Sys2Proof Sys2Proof.Machine

/-! ### Words -/

/-- R81: the four words of the opcode map, each written out as RSV (bits 31:2) and OP (bits 1:0), and a word with a
reserved bit set. -/
def Obligations.CommandWordsWrittenOut : Prop :=
  decode 0b000000000000000000000000000000_00#32 = .ok .encodeHex ∧
  decode 0b000000000000000000000000000000_01#32 = .ok .decodeHex ∧
  decode 0b000000000000000000000000000000_10#32 = .ok .encodeBase32 ∧
  decode 0b000000000000000000000000000000_11#32 = .error .reservedOp ∧
  decode 0b000000000000000000000000000001_00#32 = .error .reservedBits ∧
  decode 0b100000000000000000000000000000_10#32 = .error .reservedBits

/-- The decoder is total, three words name an operation, and every other word is illegal (rests on R83: its pseudocode, and the
count that the spec marks as its own inference from it). -/
def Obligations.OnlyThreeWordsNameAnOperation : Prop :=
  ∀ w : Word,
    (decode w = .ok .encodeHex ↔ w = 0x00000000#32) ∧
    (decode w = .ok .decodeHex ↔ w = 0x00000001#32) ∧
    (decode w = .ok .encodeBase32 ↔ w = 0x00000002#32) ∧
    (w ≠ 0x00000000#32 → w ≠ 0x00000001#32 → w ≠ 0x00000002#32 → ∃ e, decode w = .error e)

/-- Encoder and decoder agree (rests on R80, R81, R83): every command's word decodes to it, and a word that decodes to a command
is that command's word. That the opcode table's numbering gives the same, table bit k being CMD bit k, is what the model reads
from R57 and R58 (log 19). -/
def Obligations.DecodeAndEncodeAgree : Prop :=
  (∀ i : Instr, decode (encode i) = .ok i ∧ decodeTableWord 32 (encode i).toNat = some i) ∧
  ∀ (w : Word) (i : Instr), decode w = .ok i → w = encode i

/-! ### The host's port -/

/-- R53: exactly the accesses of a wrong width or alignment are answered BUS_ERROR, and they change nothing. That read
data is then 0 is R52's clause. -/
def Obligations.WrongWidthIsBusError : Prop :=
  (∀ (s : State) (a : Access),
    (((accessAddr a).toNat ≤ 0x0FFFF ∧ (accessWidth a ≠ 4 ∨ (accessAddr a).toNat % 4 ≠ 0)) ∨
      (0x10000 ≤ (accessAddr a).toNat ∧ accessWidth a ≠ 1) →
        hostAccess a s = { s with response := some .busError }) ∧
    ((hostAccess a s).response = some .busError →
      ((accessAddr a).toNat ≤ 0x0FFFF ∧ (accessWidth a ≠ 4 ∨ (accessAddr a).toNat % 4 ≠ 0)) ∨
        (0x10000 ≤ (accessAddr a).toNat ∧ accessWidth a ≠ 1))) ∧
  responseData .busError = 0#32

/-- R54: every aligned 4-byte access in REG is answered OK; what each register reads, that reserved offsets read 0, and
what each write does. -/
def Obligations.RegisterRegionAccess : Prop :=
  ∀ (s : State) (a : Offset) (v : Word), a.toNat ≤ 0x0FFFF → a.toNat % 4 = 0 →
    (a = 0x00000#18 →
      hostAccess (.read4 a) s = { s with response := some (.data32 0#32) } ∧
      hostAccess (.write4 a v) s = { request v s with response := some .ok }) ∧
    (a = 0x00004#18 →
      hostAccess (.read4 a) s = { s with response := some (.data32 (statusWord s.status)) } ∧
      hostAccess (.write4 a v) s = { s with response := some .ok }) ∧
    (a = 0x00008#18 →
      hostAccess (.read4 a) s = { s with response := some (.data32 (s.inLen.setWidth 32)) } ∧
      (s.status.state ≠ .busy →
        hostAccess (.write4 a v) s = { s with inLen := v.extractLsb' 0 17, response := some .ok }) ∧
      (s.status.state = .busy → hostAccess (.write4 a v) s = { s with response := some .ok })) ∧
    (a = 0x0000C#18 →
      hostAccess (.read4 a) s = { s with response := some (.data32 (s.outLen.setWidth 32)) } ∧
      hostAccess (.write4 a v) s = { s with response := some .ok }) ∧
    (a = 0x00010#18 →
      hostAccess (.read4 a) s = { s with response := some (.data32 (s.cap.setWidth 32)) } ∧
      hostAccess (.write4 a v) s = { s with response := some .ok }) ∧
    (0x00014 ≤ a.toNat →
      hostAccess (.read4 a) s = { s with response := some (.data32 0#32) } ∧
      hostAccess (.write4 a v) s = { s with response := some .ok })

/-- The STATUS word (rests on R28's table, R201 to R204): each field in its place, every reserved bit 0, and the number of each
state and of each error code. -/
def Obligations.StatusWordLayout : Prop :=
  ∀ st : Status,
    (statusWord st).extractLsb' 0 2 = stateBits st.state ∧ (statusWord st).extractLsb' 2 2 = 0#2 ∧
    (statusWord st).extractLsb' 4 3 = errBits st.errCode ∧ (statusWord st).extractLsb' 7 1 = 0#1 ∧
    (statusWord st).extractLsb' 8 8 = st.errInfo ∧ (statusWord st).extractLsb' 16 2 = st.op ∧
    (statusWord st).extractLsb' 18 14 = 0#14 ∧
    (st.state = .idle → (statusWord st).extractLsb' 0 2 = 0#2) ∧
    (st.state = .busy → (statusWord st).extractLsb' 0 2 = 1#2) ∧
    (st.state = .done → (statusWord st).extractLsb' 0 2 = 2#2) ∧
    (st.state = .error → (statusWord st).extractLsb' 0 2 = 3#2) ∧
    (st.errCode = .none → (statusWord st).extractLsb' 4 3 = 0#3) ∧
    (st.errCode = .invalidCharacter → (statusWord st).extractLsb' 4 3 = 1#3) ∧
    (st.errCode = .invalidLength → (statusWord st).extractLsb' 4 3 = 2#3) ∧
    (st.errCode = .capacityExceeded → (statusWord st).extractLsb' 4 3 = 3#3) ∧
    (st.errCode = .illegalOp → (statusWord st).extractLsb' 4 3 = 4#3)

/-- The input buffer (rests on R55, R24). A byte the host has written reads back; a write lands unless BUSY or beyond IN_CAP, and
leaves every other byte alone. An unwritten byte reads as the same unspecified byte each time (U5): that it is the draw
`Config.inDraw` of the byte and the reset count is the model's choice (log 6). -/
def Obligations.InputBufferAccess : Prop :=
  ∀ (s : State) (a : Offset) (i : Nat) (v : Byte), i < 0x10000 → a.toNat = 0x10000 + i →
    (i < s.cap.toNat → ∀ b, Memory.read s.inBuf i = some b →
      hostAccess (.read1 a) s = { s with response := some (.data8 b) }) ∧
    (i < s.cap.toNat → Memory.read s.inBuf i = none →
      hostAccess (.read1 a) s = { s with response := some (.data8 (Config.inDraw s.epoch i)) }) ∧
    (s.cap.toNat ≤ i → hostAccess (.read1 a) s = { s with response := some (.data8 0#8) }) ∧
    (i < s.cap.toNat → s.status.state ≠ .busy →
      ∃ m, hostAccess (.write1 a v) s = { s with inBuf := m, response := some .ok } ∧
        Memory.read m i = some v ∧ ∀ k, k ≠ i → Memory.read m k = Memory.read s.inBuf k) ∧
    (s.cap.toNat ≤ i ∨ s.status.state = .busy → hostAccess (.write1 a v) s = { s with response := some .ok })

/-- The output buffer (rests on R56, R40). A result byte reads as the core wrote it, only in state DONE and below OUT_LEN; beyond
OUT_CAP reads give 0; writes are ignored. Every other byte below OUT_CAP is unspecified at each read (U2): that it is the draw
`Config.outDraw` of a counter that the read advances is the model's choice (log 7). `OutputStored` is what `Inv` gives in
state DONE. -/
def Obligations.OutputBufferAccess : Prop :=
  ∀ (s : State) (a : Offset) (j : Nat) (v : Byte), j < 0x20000 → a.toNat = 0x20000 + j →
    (j < outCap s → s.status.state = .done → j < s.outLen.toNat → OutputStored s s.outLen.toNat →
      ∃ b, Memory.read s.outBuf j = some b ∧ hostAccess (.read1 a) s = { s with response := some (.data8 b) }) ∧
    (j < outCap s → s.status.state ≠ .done ∨ s.outLen.toNat ≤ j →
      hostAccess (.read1 a) s = { s with response := some (.data8 (Config.outDraw s.draws)), draws := s.draws + 1 }) ∧
    (outCap s ≤ j → hostAccess (.read1 a) s = { s with response := some (.data8 0#8) }) ∧
    hostAccess (.write1 a v) s = { s with response := some .ok }

/-- Reads have no side effect on the block and repeat, and writes to IN and IN_LEN are idempotent (rests on R61). The read
of an unspecified OUT byte uses up a draw, which is no state of the block. -/
def Obligations.ReadsRepeatAndBufferWritesAreIdempotent : Prop :=
  (∀ (s : State) (a : Offset),
    SameBlock s (hostAccess (.read1 a) s) ∧ SameBlock s (hostAccess (.read4 a) s) ∧
    hostAccess (.read4 a) (hostAccess (.read4 a) s) = hostAccess (.read4 a) s ∧
    ((hostAccess (.read1 a) s).draws = s.draws →
      hostAccess (.read1 a) (hostAccess (.read1 a) s) = hostAccess (.read1 a) s) ∧
    ((hostAccess (.read1 a) s).draws ≠ s.draws →
      0x20000 ≤ a.toNat ∧ outDefined s (a.toNat - 0x20000) = none)) ∧
  (∀ (s : State) (a : Offset) (v : Byte),
    hostAccess (.write1 a v) (hostAccess (.write1 a v) s) = hostAccess (.write1 a v) s) ∧
  ∀ (s : State) (v : Word),
    hostAccess (.write4 0x00008#18 v) (hostAccess (.write4 0x00008#18 v) s) = hostAccess (.write4 0x00008#18 v) s

/-- R104: while BUSY a write to CMD, to IN_LEN or to IN is answered OK and changes nothing; so is every other write of the
right width; and reads are served. -/
def Obligations.WritesWhileBusyLeaveNoTrace : Prop :=
  ∀ s : State, s.status.state = .busy →
    (∀ v, hostAccess (.write4 0x00000#18 v) s = { s with response := some .ok }) ∧
    (∀ v, hostAccess (.write4 0x00008#18 v) s = { s with response := some .ok }) ∧
    (∀ (a : Offset) (v : Byte), 0x10000 ≤ a.toNat → hostAccess (.write1 a v) s = { s with response := some .ok }) ∧
    (∀ (a : Offset) (v : Word), a.toNat ≤ 0x0FFFF → a.toNat % 4 = 0 →
      hostAccess (.write4 a v) s = { s with response := some .ok }) ∧
    (∀ a : Offset, a.toNat ≤ 0x0FFFF → a.toNat % 4 = 0 → ∃ d, (hostAccess (.read4 a) s).response = some (.data32 d)) ∧
    (∀ a : Offset, 0x10000 ≤ a.toNat → ∃ d, (hostAccess (.read1 a) s).response = some (.data8 d))

/-- R101 and R102: a command request is ignored while BUSY and otherwise accepted, with all the writes of R102 at once;
nothing else changes, and the response is OK either way. -/
def Obligations.CommandRequestIsAcceptedUnlessBusy : Prop :=
  ∀ (s : State) (w : Word),
    (s.status.state = .busy → hostAccess (.write4 0x00000#18 w) s = { s with response := some .ok }) ∧
    (s.status.state ≠ .busy →
      hostAccess (.write4 0x00000#18 w) s =
        { s with
          status := { state := .busy, errCode := .none, errInfo := 0#8, op := w.extractLsb' 0 2 }
          curOp := w.extractLsb' 0 2
          ill := decide (w.extractLsb' 2 30 ≠ 0#30 ∨ w.extractLsb' 0 2 = 3#2)
          n := s.inLen
          idx := 0#17
          outPtr := 0#18
          phase := .check
          outLen := 0#18
          response := some .ok })

/-- Only IN_LEN's low 17 bits are kept and read back (rests on R26): the one truncation of the interface. -/
def Obligations.InLenKeepsSeventeenBits : Prop :=
  ∀ (s : State) (v : Word), s.status.state ≠ .busy →
    (hostAccess (.read4 0x00008#18) (hostAccess (.write4 0x00008#18 v) s)).response =
      some (.data32 (BitVec.ofNat 32 (v.toNat % 2 ^ 17)))

/-! ### Steps -/

/-- A step runs the decoded command (rests on R64, R83, R101; the turn's form is the model's choice, log 1): when the next event is
a write of a word that decodes to `i`, the step is `exec i` with the write answered OK. `withFetchWord` makes that so, and all it
does is the model's choice: it places the command from outside, with core steps enough to end it (log 2), makes a BUSY block
idle first (log 20), and of a word of more than 32 bits takes the low 32 (log 19). -/
def Obligations.StepRunsTheDecodedCommand : Prop :=
  (∀ (s : State) (w : Word) (g : Nat) (rest : List Turn) (i : Instr),
    s.agenda = { event := .access (.write4 0x00000#18 w), gap := g } :: rest → decode w = .ok i →
      step s = exec i { s with agenda := rest, gap := g, response := some .ok }) ∧
  ∀ (s : State) (nbits w : Nat) (i : Instr),
    decode (BitVec.ofNat 32 (w % 2 ^ nbits)) = .ok i →
      step (s.withFetchWord nbits w) =
        exec i { s with
          status := if s.status.state = .busy then State.reset.status else s.status
          gap := enoughSteps s.inLen.toNat
          response := some .ok }

/-- What a step is (rests on R64, R100, R101, R104, R107, R204; that a step is a turn is the model's choice, log 1, log 3): the
next event happens, whatever it is, and then its core steps. A CMD write is among them: of a legal or a reserved word, on a
block that is BUSY or not, with any number of core steps after it. With no event to come the core takes one step; and no core
step happens outside BUSY. -/
def Obligations.StepTakesTheNextEventThenTheCore : Prop :=
  (∀ (s : State) (e : Event) (g : Nat) (rest : List Turn),
    s.agenda = { event := e, gap := g } :: rest →
      step s = coreRun g (hostEvent e { s with agenda := rest, gap := 0 })) ∧
  (∀ s : State, s.agenda = [] → step s = coreStep s) ∧
  ∀ (s : State) (k : Nat), s.status.state ≠ .busy → coreStep s = .next s ∧ coreRun k s = .next s

/-- A CMD word that names no operation (rests on R204) is accepted and ends in ILLEGAL_OP, whatever the input length; OP
records w[1:0], ERR_INFO is 0, and no output byte is written. That one core step suffices is the model's turn (log 1).
-/
def Obligations.ReservedWordEndsInIllegalOp : Prop :=
  ∀ (s : State) (w : Word) (g : Nat) (rest : List Turn),
    s.agenda = { event := .access (.write4 0x00000#18 w), gap := g } :: rest → s.status.state ≠ .busy → 1 ≤ g →
    w.extractLsb' 2 30 ≠ 0#30 ∨ w.extractLsb' 0 2 = 3#2 →
      ∃ t, step s = .next t ∧
        t.status = { state := .error, errCode := .illegalOp, errInfo := 0#8, op := w.extractLsb' 0 2 } ∧
        t.outLen = 0#18 ∧ t.outBuf = s.outBuf ∧ t.inBuf = s.inBuf ∧ t.inLen = s.inLen ∧ t.cap = s.cap ∧
        t.response = some .ok ∧ t.agenda = rest

/-- The core step (rests on R105, R205): the CHECK step raises the first check that fails, ILLEGAL_OP before
CAPACITY_EXCEEDED, each by R200 with info 0, or starts RUN from cleared registers; a RUN step is one step of the unit
that CUR_OP selects. That an error keeps the internal registers is the model's choice (log 21). -/
def Obligations.CoreStepFollowsItsPhase : Prop :=
  ∀ s : State, s.status.state = .busy →
    (s.phase = .check → s.ill = true →
      coreStep s = .next { s with status := { s.status with state := .error, errCode := .illegalOp, errInfo := 0#8 } }) ∧
    (s.phase = .check → s.ill = false → s.cap < s.n →
      coreStep s =
        .next { s with status := { s.status with state := .error, errCode := .capacityExceeded, errInfo := 0#8 } }) ∧
    (s.phase = .check → s.ill = false → s.n ≤ s.cap →
      coreStep s = .next { s with
        phase := .run, half := false, pairSr := 0#8, loads := 0#3, syms := 0#4, sr40 := 0#40 }) ∧
    (s.phase = .run → s.curOp = 0#2 → coreStep s = hexEncoderStep s) ∧
    (s.phase = .run → s.curOp = 1#2 → coreStep s = hexDecoderStep s) ∧
    (s.phase = .run → s.curOp = 2#2 → coreStep s = base32EncoderStep s)

/-- R124, in the states that meet the invariant: while IDX < N a step puts out the two characters of IN[IDX], the high
nibble's first; at IDX = N the command completes with OUT_LEN = OUT_PTR = 2N. -/
def Obligations.HexEncoderStepRule : Prop :=
  ∀ s : State, Inv s → s.status.state = .busy → s.phase = .run → s.curOp = 0#2 →
    (s.idx < s.n → ∀ b, Memory.read s.inBuf s.idx.toNat = some b →
      coreStep s = .next { s with
        outBuf := Memory.write (Memory.write s.outBuf s.outPtr.toNat (hexLut (b.extractLsb' 4 4)))
          (s.outPtr.toNat + 1) (hexLut (b.extractLsb' 0 4))
        outPtr := s.outPtr + 2#18
        idx := s.idx + 1#17 }) ∧
    (s.idx = s.n →
      s.outPtr.toNat = 2 * s.n.toNat ∧
      coreStep s = .next { s with
        outLen := s.outPtr
        status := { s.status with state := .done, errCode := .none, errInfo := 0#8 } })

/-- The hex_decoder step (rests on R146), in the states that meet the invariant: an invalid byte of a consumed pair raises
INVALID_CHARACTER with that byte; a valid one shifts its nibble in, and after the low one of a pair the byte goes out;
at IDX = M the command completes with OUT_LEN = OUT_PTR = N div 2. That an error keeps the internal registers is the
model's choice (log 21). -/
def Obligations.HexDecoderStepRule : Prop :=
  ∀ s : State, Inv s → s.status.state = .busy → s.phase = .run → s.curOp = 1#2 →
    (s.idx.toNat < 2 * (s.n.toNat / 2) → ∀ c, Memory.read s.inBuf s.idx.toNat = some c → decLut c = none →
      coreStep s =
        .next { s with status := { s.status with state := .error, errCode := .invalidCharacter, errInfo := c } }) ∧
    (s.idx.toNat < 2 * (s.n.toNat / 2) → ∀ c v, Memory.read s.inBuf s.idx.toNat = some c → decLut c = some v →
      s.half = false →
      coreStep s = .next { s with
        pairSr := s.pairSr.extractLsb' 0 4 ++ v, half := true, idx := s.idx + 1#17 }) ∧
    (s.idx.toNat < 2 * (s.n.toNat / 2) → ∀ c v, Memory.read s.inBuf s.idx.toNat = some c → decLut c = some v →
      s.half = true →
      coreStep s = .next { s with
        pairSr := s.pairSr.extractLsb' 0 4 ++ v
        outBuf := Memory.write s.outBuf s.outPtr.toNat (s.pairSr.extractLsb' 0 4 ++ v)
        outPtr := s.outPtr + 1#18
        half := false
        idx := s.idx + 1#17 }) ∧
    (s.idx.toNat = 2 * (s.n.toNat / 2) →
      s.outPtr.toNat = s.n.toNat / 2 ∧
      coreStep s = .next { s with
        outLen := s.outPtr
        status := { s.status with state := .done, errCode := .none, errInfo := 0#8 } })

/-- The base32_encoder step (rests on R165, R166), in the states that meet the invariant: INVALID_LENGTH(5) on the first
RUN step of a length that is no multiple of 5; else a load; else, with five bytes loaded, one symbol from the top of
SR40, the eighth ending the group; else, at IDX = N, completion with OUT_LEN = OUT_PTR = 8N/5. That an error keeps the
internal registers is the model's choice (log 21). -/
def Obligations.Base32EncoderStepRule : Prop :=
  ∀ s : State, Inv s → s.status.state = .busy → s.phase = .run → s.curOp = 2#2 →
    (s.n.toNat % 5 ≠ 0 →
      coreStep s =
        .next { s with status := { s.status with state := .error, errCode := .invalidLength, errInfo := 5#8 } }) ∧
    (s.n.toNat % 5 = 0 → s.loads < 5#3 → s.idx < s.n → ∀ b, Memory.read s.inBuf s.idx.toNat = some b →
      coreStep s = .next { s with
        sr40 := s.sr40.extractLsb' 0 32 ++ b, idx := s.idx + 1#17, loads := s.loads + 1#3 }) ∧
    (s.n.toNat % 5 = 0 → s.loads = 5#3 → s.syms < 7#4 →
      coreStep s = .next { s with
        outBuf := Memory.write s.outBuf s.outPtr.toNat (b32Lut (s.sr40.extractLsb' 35 5))
        sr40 := s.sr40.extractLsb' 0 35 ++ 0#5
        outPtr := s.outPtr + 1#18
        syms := s.syms + 1#4 }) ∧
    (s.n.toNat % 5 = 0 → s.loads = 5#3 → s.syms = 7#4 →
      coreStep s = .next { s with
        outBuf := Memory.write s.outBuf s.outPtr.toNat (b32Lut (s.sr40.extractLsb' 35 5))
        sr40 := s.sr40.extractLsb' 0 35 ++ 0#5
        outPtr := s.outPtr + 1#18
        loads := 0#3
        syms := 0#4 }) ∧
    (s.n.toNat % 5 = 0 → s.loads < 5#3 → s.idx = s.n →
      s.loads = 0#3 ∧ s.outPtr.toNat = 8 * s.n.toNat / 5 ∧
      coreStep s = .next { s with
        outLen := s.outPtr
        status := { s.status with state := .done, errCode := .none, errInfo := 0#8 } })

/-! ### The datapaths against the functions -/

/-- Step equivalence of hex_encoder (rests on R125): after `k` of its steps, IDX = k, OUT_PTR = 2k and the output so far is
hexEncode of the first `k` bytes. -/
def Obligations.HexEncoderStepEquivalence : Prop :=
  ∀ (s : State) (k : Nat), s.status.state = .busy → s.phase = .run → s.curOp = 0#2 → s.idx = 0#17 → s.outPtr = 0#18 →
    s.n ≤ s.cap → k ≤ s.n.toNat → InputWritten s k →
      ∃ t, coreRun k s = .next t ∧ t.status = s.status ∧ t.idx.toNat = k ∧ t.outPtr.toNat = 2 * k ∧
        (∀ j < 2 * k, Memory.read t.outBuf j = (hexEncode (inputBytes s k))[j]?) ∧
        (∀ j, 2 * k ≤ j → Memory.read t.outBuf j = Memory.read s.outBuf j)

/-- Step equivalence of hex_decoder (rests on R147): after an even number `k` of its steps without an error, IDX = k,
HALF = 0, OUT_PTR = k/2 and the output so far is hexDecode of the first `k` characters. -/
def Obligations.HexDecoderStepEquivalence : Prop :=
  ∀ (s : State) (k : Nat), s.status.state = .busy → s.phase = .run → s.curOp = 1#2 → s.idx = 0#17 → s.outPtr = 0#18 →
    s.half = false → s.n ≤ s.cap → k % 2 = 0 → k ≤ s.n.toNat → InputWritten s k →
    (∀ i < k, (decLut (inValue s i)).isSome = true) →
      ∃ t out, coreRun k s = .next t ∧ t.status = s.status ∧ t.idx.toNat = k ∧ t.half = false ∧ t.outPtr.toNat = k / 2 ∧
        hexDecode (inputBytes s k) = .done out ∧
        (∀ j < k / 2, Memory.read t.outBuf j = out[j]?) ∧
        (∀ j, k / 2 ≤ j → Memory.read t.outBuf j = Memory.read s.outBuf j)

/-- Step equivalence of base32_encoder (rests on R167): after 13g of its steps, IDX = 5g, OUT_PTR = 8g, LOADS = SYMS = 0
and the output so far is the characters of the first `g` groups. -/
def Obligations.Base32EncoderStepEquivalence : Prop :=
  ∀ (s : State) (g : Nat), s.status.state = .busy → s.phase = .run → s.curOp = 2#2 → s.idx = 0#17 → s.outPtr = 0#18 →
    s.loads = 0#3 → s.syms = 0#4 → s.n ≤ s.cap → s.n.toNat % 5 = 0 → g ≤ s.n.toNat / 5 → InputWritten s (5 * g) →
      ∃ t, coreRun (13 * g) s = .next t ∧ t.status = s.status ∧ t.idx.toNat = 5 * g ∧ t.outPtr.toNat = 8 * g ∧
        t.loads = 0#3 ∧ t.syms = 0#4 ∧
        base32Encode (inputBytes s (5 * g)) = .done (base32Groups (inputBytes s (5 * g))) ∧
        (∀ j < 8 * g, Memory.read t.outBuf j = (base32Groups (inputBytes s (5 * g)))[j]?) ∧
        (∀ j, 8 * g ≤ j → Memory.read t.outBuf j = Memory.read s.outBuf j)

/-- An accepted command, legal or reserved, ends in the host-visible state of its functional outcome `execute` (rests on
R108, R107), after finitely many core steps and for good; IN and IN_LEN are unchanged. -/
def Obligations.CommandReachesItsFunctionalOutcome : Prop :=
  ∀ (s : State) (w : Word), s.status.state ≠ .busy → (s.inLen ≤ s.cap → InputWritten s s.inLen.toNat) →
    ∃ k t, (∀ m, k ≤ m → coreRun m (accept w s) = .next t) ∧
      (∀ seq, execute s.cap w s.inLen (inputBytes s s.inLen.toNat) = .done seq →
        t.status = { state := .done, errCode := .none, errInfo := 0#8, op := w.extractLsb' 0 2 } ∧
        t.outLen.toNat = seq.length ∧ ∀ j, outDefined t j = seq[j]?) ∧
      (∀ e info, execute s.cap w s.inLen (inputBytes s s.inLen.toNat) = .error e info →
        t.status = { state := .error, errCode := e, errInfo := info, op := w.extractLsb' 0 2 } ∧
        t.outLen = 0#18 ∧ ∀ j, outDefined t j = none) ∧
      t.inBuf = s.inBuf ∧ t.inLen = s.inLen

/-! ### The three commands -/

/-- ENCODE_HEX on an input that fits (rests on R120, R121, R107; the core steps come with the turn, log 1): DONE, OUT_LEN
= 2N, OUT[0 .. 2N-1] = hexEncode of the input. Frame: every other OUT byte, IN, IN_LEN, CAP and what is not the
command's. The registers of R34 end as named, those of the other units stay cleared. -/
def Obligations.EncodeHexResult : Prop :=
  ∀ s : State, s.status.state ≠ .busy → s.inLen ≤ s.cap → InputWritten s s.inLen.toNat → s.inLen.toNat + 2 ≤ s.gap →
    ∃ t, exec .encodeHex s = .next t ∧
      t.status = { state := .done, errCode := .none, errInfo := 0#8, op := 0#2 } ∧
      t.outLen.toNat = 2 * s.inLen.toNat ∧
      (∀ j < 2 * s.inLen.toNat, outDefined t j = (hexEncode (inputBytes s s.inLen.toNat))[j]?) ∧
      (∀ j, 2 * s.inLen.toNat ≤ j → Memory.read t.outBuf j = Memory.read s.outBuf j) ∧
      SameInput s t ∧
      t.curOp = 0#2 ∧ t.ill = false ∧ t.n = s.inLen ∧ t.idx = s.inLen ∧ t.outPtr = t.outLen ∧ t.phase = .run ∧
      t.pairSr = 0#8 ∧ t.half = false ∧ t.sr40 = 0#40 ∧ t.loads = 0#3 ∧ t.syms = 0#4

/-- DECODE_HEX on an input that fits and whose consumed pairs are all hex digits (rests on R140 to R142, R144, R107; log 1):
DONE, OUT_LEN = N div 2, OUT = hexDecode of the input; the last character of an odd input is neither read nor checked.
Frame as for ENCODE_HEX; IDX ends at 2 * (N div 2), and PAIR_SR is the command's own. -/
def Obligations.DecodeHexResult : Prop :=
  ∀ s : State, s.status.state ≠ .busy → s.inLen ≤ s.cap → InputWritten s (2 * (s.inLen.toNat / 2)) →
    (∀ i < 2 * (s.inLen.toNat / 2), (decLut (inValue s i)).isSome = true) → s.inLen.toNat + 2 ≤ s.gap →
    ∃ t out, exec .decodeHex s = .next t ∧
      t.status = { state := .done, errCode := .none, errInfo := 0#8, op := 1#2 } ∧
      t.outLen.toNat = s.inLen.toNat / 2 ∧
      hexDecode (inputBytes s s.inLen.toNat) = .done out ∧
      (∀ j < s.inLen.toNat / 2, outDefined t j = out[j]?) ∧
      (∀ j, s.inLen.toNat / 2 ≤ j → Memory.read t.outBuf j = Memory.read s.outBuf j) ∧
      SameInput s t ∧
      t.curOp = 1#2 ∧ t.ill = false ∧ t.n = s.inLen ∧ t.idx.toNat = 2 * (s.inLen.toNat / 2) ∧ t.outPtr = t.outLen ∧
      t.phase = .run ∧ t.half = false ∧ t.sr40 = 0#40 ∧ t.loads = 0#3 ∧ t.syms = 0#4

/-- DECODE_HEX with an invalid byte in a consumed pair (rests on R145, R147, R201, R200; log 1): ERROR, INVALID_CHARACTER
with the invalid byte of lowest index, OUT_LEN = 0 and no OUT byte defined; bytes after it need not even be written.
Frame: the bytes stored before the error are OUT[0 .. i/2-1]. The values of the internal registers after the error are the
model's choice (log 21). -/
def Obligations.DecodeHexInvalidCharacter : Prop :=
  ∀ (s : State) (i : Nat), s.status.state ≠ .busy → s.inLen ≤ s.cap → i < 2 * (s.inLen.toNat / 2) →
    InputWritten s (i + 1) → (∀ k < i, (decLut (inValue s k)).isSome = true) → decLut (inValue s i) = none →
    i + 2 ≤ s.gap →
    ∃ t, exec .decodeHex s = .next t ∧
      t.status = { state := .error, errCode := .invalidCharacter, errInfo := inValue s i, op := 1#2 } ∧
      t.outLen = 0#18 ∧ (∀ j, outDefined t j = none) ∧
      (∀ j, i / 2 ≤ j → Memory.read t.outBuf j = Memory.read s.outBuf j) ∧
      SameInput s t ∧
      t.curOp = 1#2 ∧ t.ill = false ∧ t.n = s.inLen ∧ t.idx.toNat = i ∧ t.phase = .run ∧
      t.sr40 = 0#40 ∧ t.loads = 0#3 ∧ t.syms = 0#4

/-- ENCODE_BASE32 on an input that fits and whose length is a multiple of 5 (rests on R160 to R162, R107; log 1): DONE,
OUT_LEN = 8N/5, OUT = base32Encode of the input. Frame as for ENCODE_HEX; SR40 is the command's own. -/
def Obligations.EncodeBase32Result : Prop :=
  ∀ s : State, s.status.state ≠ .busy → s.inLen ≤ s.cap → s.inLen.toNat % 5 = 0 → InputWritten s s.inLen.toNat →
    13 * (s.inLen.toNat / 5) + 2 ≤ s.gap →
    ∃ t out, exec .encodeBase32 s = .next t ∧
      t.status = { state := .done, errCode := .none, errInfo := 0#8, op := 2#2 } ∧
      t.outLen.toNat = 8 * s.inLen.toNat / 5 ∧
      base32Encode (inputBytes s s.inLen.toNat) = .done out ∧
      (∀ j < 8 * s.inLen.toNat / 5, outDefined t j = out[j]?) ∧
      (∀ j, 8 * s.inLen.toNat / 5 ≤ j → Memory.read t.outBuf j = Memory.read s.outBuf j) ∧
      SameInput s t ∧
      t.curOp = 2#2 ∧ t.ill = false ∧ t.n = s.inLen ∧ t.idx = s.inLen ∧ t.outPtr = t.outLen ∧ t.phase = .run ∧
      t.pairSr = 0#8 ∧ t.half = false ∧ t.loads = 0#3 ∧ t.syms = 0#4

/-- ENCODE_BASE32 on a length that fits and is no multiple of 5 (rests on R160, R202, R200; log 1): ERROR, INVALID_LENGTH
with info 5, OUT_LEN = 0, and no output byte is written. No input byte need be written. The values of the internal registers after
the error are the model's choice (log 21). -/
def Obligations.EncodeBase32InvalidLength : Prop :=
  ∀ s : State, s.status.state ≠ .busy → s.inLen ≤ s.cap → s.inLen.toNat % 5 ≠ 0 → 2 ≤ s.gap →
    ∃ t, exec .encodeBase32 s = .next t ∧
      t.status = { state := .error, errCode := .invalidLength, errInfo := 5#8, op := 2#2 } ∧
      t.outLen = 0#18 ∧ (∀ j, outDefined t j = none) ∧ t.outBuf = s.outBuf ∧ SameInput s t ∧
      t.curOp = 2#2 ∧ t.ill = false ∧ t.n = s.inLen ∧ t.idx = 0#17 ∧ t.outPtr = 0#18 ∧ t.phase = .run ∧
      t.pairSr = 0#8 ∧ t.half = false ∧ t.sr40 = 0#40 ∧ t.loads = 0#3 ∧ t.syms = 0#4

/-- Every command on a length beyond IN_CAP (rests on R203, R207, R200; log 1): ERROR, CAPACITY_EXCEEDED with info 0,
before any error of the operation; nothing but the common command state changes. The values of the internal registers
after the error are the model's choice (log 21). -/
def Obligations.CapacityExceededByEveryCommand : Prop :=
  ∀ (i : Instr) (s : State), s.status.state ≠ .busy → s.cap < s.inLen → 1 ≤ s.gap →
    ∃ t, exec i s = .next t ∧
      t.status = { state := .error, errCode := .capacityExceeded, errInfo := 0#8, op := opcode i } ∧
      t.outLen = 0#18 ∧ (∀ j, outDefined t j = none) ∧ t.outBuf = s.outBuf ∧ SameInput s t ∧
      t.curOp = opcode i ∧ t.ill = false ∧ t.n = s.inLen ∧ t.idx = 0#17 ∧ t.outPtr = 0#18 ∧ t.phase = .check ∧
      t.pairSr = s.pairSr ∧ t.half = s.half ∧ t.sr40 = s.sr40 ∧ t.loads = s.loads ∧ t.syms = s.syms

/-- A command issued while another runs is ignored (rests on R101, R104, R111): only the running command goes on. -/
def Obligations.CommandWhileBusyIsIgnored : Prop :=
  ∀ (i : Instr) (s : State), s.status.state = .busy → exec i s = coreRun s.gap { s with gap := 0 }

/-- The frame of every command for every number of core steps (rests on R27, R42, R70, R102, R106, R200; log 1): IN, IN_LEN, CAP
and what is not the command's stay; STATUS.OP is the command's, or the running one's; the OUT bytes at and above OUT_PTR are
untouched, and so is every one below the place the output started from. OUT_LEN is 0 while BUSY and after an error and OUT_PTR
when DONE, also where a command was running, given that OUT_LEN was 0 then (`Inv` says it is). After an error the values
of CUR_OP, N and OUT_PTR are the model's choice (log 21). -/
def Obligations.CommandFrame : Prop :=
  ∀ (i : Instr) (s t : State), exec i s = .next t →
    SameInput s t ∧
    (s.status.state ≠ .busy → t.status.op = opcode i ∧ t.curOp = opcode i ∧ t.n = s.inLen) ∧
    (s.status.state = .busy → t.status.op = s.status.op ∧ t.curOp = s.curOp ∧ t.n = s.n) ∧
    (∀ j, t.outPtr.toNat ≤ j → Memory.read t.outBuf j = Memory.read s.outBuf j) ∧
    (s.status.state = .busy → ∀ j < s.outPtr.toNat, Memory.read t.outBuf j = Memory.read s.outBuf j) ∧
    ((s.status.state = .busy → s.outLen = 0#18) →
      (t.status.state = .busy → t.outLen = 0#18) ∧ (t.status.state = .error → t.outLen = 0#18) ∧
      (t.status.state = .done → t.outLen = t.outPtr))

/-- A command whose input bytes are written never stops the machine, whatever the number of core steps, and ends in BUSY,
DONE or ERROR (rests on R105, R107, R126; log 1, log 5, log 11). -/
def Obligations.CommandNeverStopsOnWrittenInput : Prop :=
  ∀ (i : Instr) (s : State), Inv s → s.status.state ≠ .busy → (s.inLen ≤ s.cap → InputWritten s s.inLen.toNat) →
    ∃ t, exec i s = .next t ∧ Inv t ∧ (s.gap = 0 → t.status.state = .busy) ∧ t.status.state ≠ .idle

/-- Only an unwritten input byte stops the machine (rests on R70, R105, R126; U6 and D31 of the spec, log 5, log 11): in a
state that meets the invariant a step never refuses, and a fault names an IN byte below IN_CAP that the host has not
written. -/
def Obligations.StepStopsOnlyOnUnwrittenInput : Prop :=
  ∀ s : State, Inv s →
    (∀ r, step s ≠ .refused r) ∧
    ∀ f, step s = .fault f →
      ∃ i, f = .unwrittenInput i ∧ i < s.cap.toNat ∧ i < s.inLen.toNat ∧ Memory.read s.inBuf i = none

/-- The commands that consume every input byte stop at the first one the host has not written (rests on U6 and D31, which
ask a model for a fault, hazard H5 of R236; log 5). -/
def Obligations.UnwrittenInputStopsTheCommand : Prop :=
  ∀ (s : State) (i : Nat), s.status.state ≠ .busy → s.inLen ≤ s.cap → i < s.inLen.toNat → InputWritten s i →
    Memory.read s.inBuf i = none →
    (i + 2 ≤ s.gap → exec .encodeHex s = .fault (.unwrittenInput i)) ∧
    (s.inLen.toNat % 5 = 0 → 13 * (i / 5) + i % 5 + 2 ≤ s.gap →
      exec .encodeBase32 s = .fault (.unwrittenInput i)) ∧
    (i < 2 * (s.inLen.toNat / 2) → (∀ k < i, (decLut (inValue s k)).isSome = true) → i + 2 ≤ s.gap →
      exec .decodeHex s = .fault (.unwrittenInput i))

/-- Every command ends within the bound on its core steps (rests on R107): N + 2, and 13 * (N div 5) + 2 for
ENCODE_BASE32. -/
def Obligations.CommandEndsWithinItsBound : Prop :=
  ∀ (s : State) (w : Word) (k : Nat), s.status.state ≠ .busy → (s.inLen ≤ s.cap → InputWritten s s.inLen.toNat) →
    (if w.extractLsb' 0 2 = 2#2 then 13 * (s.inLen.toNat / 5) + 2 else s.inLen.toNat + 2) ≤ k →
      ∃ t, coreRun k (accept w s) = .next t ∧ (t.status.state = .done ∨ t.status.state = .error)

/-- Left alone, the core ends the running command (rests on R107's weak fairness; log 3): with no event to come and the
input written, steps of the machine lead from BUSY to DONE or ERROR. -/
def Obligations.LeftAloneTheCoreEndsTheCommand : Prop :=
  ∀ s : State, Inv s → s.agenda = [] → s.status.state = .busy → (s.n ≤ s.cap → InputWritten s s.n.toNat) →
    ∃ k t, Host.Core.run Sys2Proof.core k s = .next t ∧ (t.status.state = .done ∨ t.status.state = .error)

/-! ### Whole-machine rules -/

/-- The invariant at reset (rests on R7, R39): of the values the model chose (log 8) it uses none, since no command runs. -/
def Obligations.ResetMeetsTheInvariant : Prop := Inv State.reset

/-- Every step keeps the invariant (rests on R7, R24 to R28, R34, R102, R106, R112, R125, R147, R167, R200). -/
def Obligations.StepKeepsTheInvariant : Prop :=
  ∀ s t : State, Inv s → step s = .next t → Inv t

/-- A command's result depends only on the word, IN_LEN and the first IN_LEN bytes of IN (rests on R6): two blocks of one
capacity that agree on these show the same STATUS, OUT_LEN and defined output after any number of core steps, whatever ran
before and whatever OUT held. That both stop at an unwritten byte, for the same reason, is the model's fault (log 5). -/
def Obligations.ResultDependsOnlyOnTheInput : Prop :=
  ∀ (s1 s2 : State) (w : Word) (k : Nat),
    s1.cap = s2.cap → s1.inLen = s2.inLen → (∀ i < s1.inLen.toNat, Memory.read s1.inBuf i = Memory.read s2.inBuf i) →
    (∀ t1, coreRun k (accept w s1) = .next t1 →
      ∃ t2, coreRun k (accept w s2) = .next t2 ∧ t2.status = t1.status ∧ t2.outLen = t1.outLen ∧
        ∀ j, outDefined t2 j = outDefined t1 j) ∧
    (∀ f, coreRun k (accept w s1) = .fault f → coreRun k (accept w s2) = .fault f)

/-- R42: no output write of the core changes IN, and no host access changes OUT. -/
def Obligations.InputAndOutputAreSeparate : Prop :=
  (∀ s t : State, coreStep s = .next t → t.inBuf = s.inBuf) ∧
  ∀ (s : State) (a : Access), (hostAccess a s).outBuf = s.outBuf

/-- Nothing but a reset changes the running command's input (rests on R68, R104): from a BUSY state, a step whose event is
no reset leaves IN and IN_LEN as they were. -/
def Obligations.InputIsFrozenWhileBusy : Prop :=
  ∀ s t : State, s.status.state = .busy → step s = .next t → (∀ u ∈ s.agenda.head?, u.event ≠ .reset) →
    t.inBuf = s.inBuf ∧ t.inLen = s.inLen ∧ t.epoch = s.epoch

/-- Who writes the flags (rests on R41): an event changes STATUS only if it is a reset or a command request accepted; a
core step only by completion (R106) or an error (R200). -/
def Obligations.FlagsHaveFourWriters : Prop :=
  (∀ (e : Event) (s : State), (hostEvent e s).status ≠ s.status →
    e = .reset ∨ ∃ w, e = .access (.write4 0x00000#18 w) ∧ s.status.state ≠ .busy) ∧
  ∀ s t : State, coreStep s = .next t → t.status ≠ s.status →
    s.status.state = .busy ∧
      ((t.status = { s.status with state := .done, errCode := .none, errInfo := 0#8 } ∧ t.outLen = s.outPtr) ∨
        ∃ e info, e ≠ .none ∧ t.status = { s.status with state := .error, errCode := e, errInfo := info } ∧
          t.outLen = s.outLen)

/-- How the error state is left (rests on R209): only by the next accepted CMD write, which clears code and info, and by
reset; no other access and no passing of time touches it. -/
def Obligations.ErrorIsLeftOnlyByCommandOrReset : Prop :=
  (∀ s t : State, s.status.state = .error → step s = .next t →
    (∀ u ∈ s.agenda.head?, u.event ≠ .reset ∧ ∀ w, u.event ≠ .access (.write4 0x00000#18 w)) → t.status = s.status) ∧
  (∀ (s : State) (w : Word), s.status.state = .error →
    (hostAccess (.write4 0x00000#18 w) s).status =
      { state := .busy, errCode := .none, errInfo := 0#8, op := w.extractLsb' 0 2 }) ∧
  ∀ s : State, (hostEvent .reset s).status = { state := .idle, errCode := .none, errInfo := 0#8, op := 0#2 }

/-- A command's final values stay until the next command or a reset (rests on R65, R216, D39): STATUS, OUT_LEN and every
defined OUT byte. -/
def Obligations.ResultStaysUntilTheNextCommand : Prop :=
  ∀ s t : State, s.status.state = .done ∨ s.status.state = .error → step s = .next t →
    (∀ u ∈ s.agenda.head?, u.event ≠ .reset ∧ ∀ w, u.event ≠ .access (.write4 0x00000#18 w)) →
      t.status = s.status ∧ t.outLen = s.outLen ∧ ∀ j, outDefined t j = outDefined s j

/-- Only a reset leads to IDLE (rests on R231, R28). -/
def Obligations.OnlyResetLeadsToIdle : Prop :=
  ∀ s t : State, step s = .next t → t.status.state = .idle → s.status.state ≠ .idle →
    ∃ u rest, s.agenda = u :: rest ∧ u.event = .reset

/-- CAP is a constant: no step changes it (rests on R29). -/
def Obligations.CapIsConstant : Prop :=
  ∀ s t : State, step s = .next t → t.cap = s.cap

/-! ### Reset -/

/-- What a reset leaves (rests on R230, R39, R7): in any state it sets STATUS, IN_LEN and OUT_LEN to 0, and no byte of IN
or OUT is known any more; power-on is a reset. CAP keeps the parameter. The values of the internal registers are the
model's own (log 8) and not stated. -/
def Obligations.ResetSetsTheStatedValues : Prop :=
  (∀ s : State,
    statusWord (hostEvent .reset s).status = 0#32 ∧ (hostEvent .reset s).inLen = 0#17 ∧ (hostEvent .reset s).outLen = 0#18 ∧
    (hostEvent .reset s).cap = s.cap ∧
    (∀ i, Memory.read (hostEvent .reset s).inBuf i = none) ∧ (∀ j, outDefined (hostEvent .reset s) j = none)) ∧
  statusWord State.reset.status = 0#32 ∧ State.reset.inLen = 0#17 ∧ State.reset.outLen = 0#18 ∧
  State.reset.cap = Config.inCap ∧ 1 ≤ Config.inCap.toNat ∧ Config.inCap.toNat ≤ 65536 ∧
  (∀ i, Memory.read State.reset.inBuf i = none) ∧ ∀ j, outDefined State.reset j = none

/-- A reset during a command (rests on R231, R230) abandons it, whatever number of core steps would follow: STATE is IDLE,
no error is reported, and no OUT byte is defined. -/
def Obligations.ResetAbandonsTheCommand : Prop :=
  ∀ (s : State) (g : Nat) (rest : List Turn), s.status.state = .busy → s.agenda = { event := .reset, gap := g } :: rest →
    ∃ t, step s = .next t ∧ t.status = { state := .idle, errCode := .none, errInfo := 0#8, op := 0#2 } ∧
      t.outLen = 0#18 ∧ ∀ j, outDefined t j = none

/-! ### Tables and laws of the functions -/

/-- The look-up tables (rests on R30, R31, R32): HEX_LUT and B32_LUT in closed form; DEC_LUT by its ranges. The gate-level form,
which R31 marks as an inference from its table, agrees with DEC_LUT on every byte. -/
def Obligations.LookUpTables : Prop :=
  (∀ k : Nibble, hexLut k = if k ≤ 9#4 then 0x30#8 + k.setWidth 8 else 0x41#8 + (k.setWidth 8 - 10#8)) ∧
  (∀ k : Symbol, b32Lut k = if k ≤ 25#5 then 0x41#8 + k.setWidth 8 else 0x32#8 + (k.setWidth 8 - 26#8)) ∧
  (∀ c : Byte,
    (0x30#8 ≤ c ∧ c ≤ 0x39#8 → decLut c = some ((c - 0x30#8).setWidth 4)) ∧
    (0x41#8 ≤ c ∧ c ≤ 0x46#8 → decLut c = some ((c - 0x41#8 + 10#8).setWidth 4)) ∧
    (0x61#8 ≤ c ∧ c ≤ 0x66#8 → decLut c = some ((c - 0x61#8 + 10#8).setWidth 4)) ∧
    (c ≤ 0x2F#8 ∨ (0x3A#8 ≤ c ∧ c ≤ 0x40#8) ∨ (0x47#8 ≤ c ∧ c ≤ 0x60#8) ∨ 0x67#8 ≤ c → decLut c = none)) ∧
  ∀ c : Byte, decLut c =
    if 0x30#8 ≤ c ∧ c ≤ 0x39#8 then some (c.setWidth 4 &&& 0xF#4)
    else if 0x41#8 ≤ c &&& 0xDF#8 ∧ c &&& 0xDF#8 ≤ 0x46#8 then some (((c &&& 0x07#8) + 9#8).setWidth 4)
    else none

/-- R122 and R123: twice as many characters as bytes, each one of HEX_LUT's codes, none lowercase. -/
def Obligations.HexEncodeLengthAndAlphabet : Prop :=
  ∀ s : List Byte, (hexEncode s).length = 2 * s.length ∧
    ∀ c ∈ hexEncode s, (0x30#8 ≤ c ∧ c ≤ 0x39#8) ∨ (0x41#8 ≤ c ∧ c ≤ 0x46#8)

/-- R121 by index: characters 2i and 2i+1 are those of byte i's high and low nibble. -/
def Obligations.HexEncodeByIndex : Prop :=
  ∀ (s : List Byte) (i : Nat) (b : Byte), s[i]? = some b →
    (hexEncode s)[2 * i]? = some (hexLut (b.extractLsb' 4 4)) ∧
    (hexEncode s)[2 * i + 1]? = some (hexLut (b.extractLsb' 0 4))

/-- R144: of an odd text the last character is neither decoded nor checked. -/
def Obligations.OddTextDropsItsLastCharacter : Prop :=
  ∀ (t : List Byte) (c : Byte), t.length % 2 = 0 → hexDecode (t ++ [c]) = hexDecode t

/-- The reported byte (rests on R145, R142): decoding fails exactly when a byte of a consumed pair is invalid, and names
the one of lowest index. A text without one decodes to half as many bytes, so a prefix is never returned. -/
def Obligations.LowestInvalidByteIsReported : Prop :=
  ∀ t : List Byte,
    (∀ (i : Nat) (c : Byte), i < 2 * (t.length / 2) → t[i]? = some c → decLut c = none →
      (∀ (k : Nat) (d : Byte), k < i → t[k]? = some d → (decLut d).isSome = true) →
        hexDecode t = .error .invalidCharacter c) ∧
    ((∀ (k : Nat) (d : Byte), k < 2 * (t.length / 2) → t[k]? = some d → (decLut d).isSome = true) →
      ∃ out, hexDecode t = .done out ∧ out.length = t.length / 2)

/-- Case does not matter to a result (rests on R143, R31): texts that differ only in the case of letters decode to the same
bytes, or both fail, each with its own byte at one and the same index. -/
def Obligations.HexDecodeIgnoresCase : Prop :=
  ∀ t u : List Byte,
    List.Forall₂ (fun a b : Byte => a = b ∨
      (((0x41#8 ≤ a ∧ a ≤ 0x5A#8) ∨ (0x61#8 ≤ a ∧ a ≤ 0x7A#8)) ∧ b = a ^^^ 0x20#8)) t u →
    (∀ out, hexDecode t = .done out → hexDecode u = .done out) ∧
    ∀ e c, hexDecode t = .error e c →
      ∃ (i : Nat) (d : Byte), t[i]? = some c ∧ u[i]? = some d ∧ hexDecode u = .error e d

/-- The hex round trip (rests on R128, R129): decoding an encoding gives the bytes back, so encoding is injective. -/
def Obligations.HexRoundTrip : Prop :=
  (∀ s : List Byte, hexDecode (hexEncode s) = .done s) ∧ ∀ s t : List Byte, hexEncode s = hexEncode t → s = t

/-- Encoding after decoding (rests on R148): an even text of hex digits comes back in upper case. -/
def Obligations.EncodeAfterDecodeIsUpperCase : Prop :=
  ∀ t : List Byte, t.length % 2 = 0 → (∀ c ∈ t, (decLut c).isSome = true) →
    ∃ s, hexDecode t = .done s ∧
      hexEncode s = t.map (fun c => if 0x61#8 ≤ c ∧ c ≤ 0x66#8 then c - 0x20#8 else c)

/-- The symbol table of one group (rests on R163 with the resolution of conflict C1: row 6 is d[1:0] ++ e[7:5]). -/
def Obligations.Base32SymbolTable : Prop :=
  ∀ a b c d e : Byte,
    groupSymbol (groupValue a b c d e) 0 = a.extractLsb' 3 5 ∧
    groupSymbol (groupValue a b c d e) 1 = a.extractLsb' 0 3 ++ b.extractLsb' 6 2 ∧
    groupSymbol (groupValue a b c d e) 2 = b.extractLsb' 1 5 ∧
    groupSymbol (groupValue a b c d e) 3 = b.extractLsb' 0 1 ++ c.extractLsb' 4 4 ∧
    groupSymbol (groupValue a b c d e) 4 = c.extractLsb' 0 4 ++ d.extractLsb' 7 1 ∧
    groupSymbol (groupValue a b c d e) 5 = d.extractLsb' 2 5 ∧
    groupSymbol (groupValue a b c d e) 6 = d.extractLsb' 0 2 ++ e.extractLsb' 5 3 ∧
    groupSymbol (groupValue a b c d e) 7 = e.extractLsb' 0 5

/-- The length law and the alphabet of ENCODE_BASE32 (rests on R161, R162, R164): 8/5 characters for each byte, each one of
B32_LUT's codes and none of them padding; a length that is no multiple of 5 is INVALID_LENGTH(5). -/
def Obligations.Base32LengthAndAlphabet : Prop :=
  ∀ s : List Byte,
    (s.length % 5 = 0 → ∃ out, base32Encode s = .done out ∧ out.length = 8 * s.length / 5 ∧
      ∀ c ∈ out, (0x41#8 ≤ c ∧ c ≤ 0x5A#8) ∨ (0x32#8 ≤ c ∧ c ≤ 0x37#8)) ∧
    (s.length % 5 ≠ 0 → base32Encode s = .error .invalidLength 5#8)

/-! ### Host programs -/

/-- A host statement is its bus access (rests on R86, R22, R81, R206; the conventions are log 14's, the record log 10's). The table
of R86: the offset, width and value of each form, and what each value operand stands for. With that access as the next event
the block takes a step, the program goes on to the next statement, a read's data lines go into its variable, and an access
answered BUS_ERROR is recorded as a fault of the program. -/
def Obligations.HostStatementIsItsAccess : Prop :=
  (∀ (vars : List (Nat × Word)) (v : Val) (x : Nat),
    stmtAccess vars (.w32 .cmd v) = some (.write4 0x00000#18 (evalVal vars v)) ∧
    stmtAccess vars (.w32 .status v) = some (.write4 0x00004#18 (evalVal vars v)) ∧
    stmtAccess vars (.w32 .inLen v) = some (.write4 0x00008#18 (evalVal vars v)) ∧
    stmtAccess vars (.w32 .outLen v) = some (.write4 0x0000C#18 (evalVal vars v)) ∧
    stmtAccess vars (.w32 .cap v) = some (.write4 0x00010#18 (evalVal vars v)) ∧
    stmtAccess vars (.r32 .cmd x) = some (.read4 0x00000#18) ∧ stmtAccess vars (.r32 .status x) = some (.read4 0x00004#18) ∧
    stmtAccess vars (.r32 .inLen x) = some (.read4 0x00008#18) ∧ stmtAccess vars (.r32 .outLen x) = some (.read4 0x0000C#18) ∧
    stmtAccess vars (.r32 .cap x) = some (.read4 0x00010#18) ∧
    stmtAccess vars (.r8reg .cmd x) = some (.read1 0x00000#18) ∧
    stmtAccess vars (.r8reg .status x) = some (.read1 0x00004#18) ∧
    stmtAccess vars (.r8reg .inLen x) = some (.read1 0x00008#18) ∧
    stmtAccess vars (.r8reg .outLen x) = some (.read1 0x0000C#18) ∧
    stmtAccess vars (.r8reg .cap x) = some (.read1 0x00010#18)) ∧
  (∀ (vars : List (Nat × Word)) (v : Val) (x i : Nat), i < 0x10000 → ∃ a : Offset, a.toNat = 0x10000 + i ∧
    stmtAccess vars (.w8in i v) = some (.write1 a ((evalVal vars v).extractLsb' 0 8)) ∧
    stmtAccess vars (.r8in i x) = some (.read1 a)) ∧
  (∀ (vars : List (Nat × Word)) (v : Val) (x j : Nat), j < 0x20000 → ∃ a : Offset, a.toNat = 0x20000 + j ∧
    stmtAccess vars (.w8out j v) = some (.write1 a ((evalVal vars v).extractLsb' 0 8)) ∧
    stmtAccess vars (.r8out j x) = some (.read1 a)) ∧
  (∀ vars : List (Nat × Word),
    (∀ n, n < 2 ^ 32 → (evalVal vars (.num n)).toNat = n) ∧ (∀ x, evalVal vars (.var x) = getVar vars x) ∧
    evalVal vars (.op .encodeHex) = 0x00000000#32 ∧ evalVal vars (.op .decodeHex) = 0x00000001#32 ∧
    evalVal vars (.op .encodeBase32) = 0x00000002#32 ∧
    (∀ l, stmtAccess vars (.label l) = none) ∧ (∀ x hi lo v l, stmtAccess vars (.jeq x hi lo v l) = none) ∧
    stmtAccess vars .stop = none) ∧
  (∀ r x i, stmtTarget (.r32 r x) = some x ∧ stmtTarget (.r8in i x) = some x ∧ stmtTarget (.r8out i x) = some x ∧
    stmtTarget (.r8reg r x) = some x) ∧
  ∀ (h : HostMachine) (g : Nat) (t : Stmt) (a : Access) (b : State),
    h.ended = false → h.prog[h.pc]? = some t → stmtAccess h.vars t = some a →
    step { h.block with agenda := { event := .access a, gap := g } :: h.block.agenda } = .next b →
      ∃ k, hostStep g h = .next k ∧ k.block = b ∧ k.pc = h.pc + 1 ∧ k.prog = h.prog ∧ k.ended = false ∧
        (stmtTarget t = none → k.vars = h.vars) ∧
        (∀ x r, stmtTarget t = some x → b.response = some r →
          getVar k.vars x = responseData r ∧ ∀ y, y ≠ x → getVar k.vars y = getVar h.vars y) ∧
        (b.response = some .busError → k.faults = { pc := h.pc, access := a } :: h.faults) ∧
        (b.response ≠ some .busError → k.faults = h.faults)

/-- WAIT loops exactly while BUSY (rests on R87, R86; log 14): its label, its STATUS read and its jump lead back to the
label if the STATUS read showed BUSY, and to the statement after it otherwise. No core step falls between the three
here. -/
def Obligations.WaitLoopsWhileBusy : Prop :=
  ∀ (h : HostMachine) (w x : Nat) (before after : List Stmt),
    h.ended = false → h.prog = before ++ waitStmts w x ++ after → h.pc = before.length →
    (∀ t ∈ before, t ≠ .label w) →
      ∃ h1 h2 h3, hostStep 0 h = .next h1 ∧ hostStep 0 h1 = .next h2 ∧ hostStep 0 h2 = .next h3 ∧
        SameBlock h.block h3.block ∧ h3.ended = false ∧ h3.faults = h.faults ∧
        getVar h3.vars x = statusWord h.block.status ∧
        (h.block.status.state = .busy → h3.pc = before.length) ∧
        (h.block.status.state ≠ .busy → h3.pc = before.length + 3)
end

