-- ==== Sys2Proof/Laws/Memory.lean ====
section
/-! SUPPORT. The laws of a buffer: a byte written reads back, every other byte stays, and a write keeps the canonical form. -/

namespace Sys2Proof.Machine

@[simp] theorem Memory.read_nil (a : Nat) : Memory.read [] a = none := rfl

theorem Memory.read_write (m : Memory) (a b : Nat) (v : Byte) :
    Memory.read (Memory.write m a v) b = if a = b then some v else Memory.read m b := by
  induction m with
  | nil => simp [Memory.write, Memory.read]
  | cons e m ih =>
    obtain ⟨k, c⟩ := e
    unfold Memory.write
    split_ifs with h1 h2 h3 <;> simp_all [Memory.read]
    · intro h; omega

@[simp] theorem Memory.read_write_same (m : Memory) (a : Nat) (v : Byte) :
    Memory.read (Memory.write m a v) a = some v := by simp [Memory.read_write]

theorem Memory.read_write_other (m : Memory) {a b : Nat} (v : Byte) (h : a ≠ b) :
    Memory.read (Memory.write m a v) b = Memory.read m b := by simp [Memory.read_write, h]

/-- Writing the same byte twice is writing it once. -/
theorem Memory.write_write_same (m : Memory) (a : Nat) (v : Byte) :
    Memory.write (Memory.write m a v) a v = Memory.write m a v := by
  induction m with
  | nil => simp [Memory.write]
  | cons e m ih =>
    obtain ⟨k, c⟩ := e
    by_cases h1 : a < k
    · simp [Memory.write, h1]
    · by_cases h2 : a = k
      · simp [Memory.write, h2]
      · simp [Memory.write, h1, h2, ih]

/-- The head of a write: the smaller of the written index and the old head. -/
theorem Memory.wf_cons {c : Host.Cell} {m : Memory} :
    Memory.wf (c :: m) = true ↔ (∀ d, m.head? = some d → c.1 < d.1) ∧ Memory.wf m = true := by
  cases m with
  | nil => simp [Memory.wf]
  | cons d m => simp [Memory.wf]

theorem Memory.head_write (m : Memory) (a : Nat) (v : Byte) :
    ∃ d, (Memory.write m a v).head? = some d ∧ (d.1 = a ∨ ∃ e, m.head? = some e ∧ d.1 = e.1) := by
  cases m with
  | nil => exact ⟨(a, v), rfl, .inl rfl⟩
  | cons e m =>
    obtain ⟨k, c⟩ := e
    unfold Memory.write
    split_ifs with h1 h2
    · exact ⟨(a, v), rfl, .inl rfl⟩
    · exact ⟨(a, v), rfl, .inl rfl⟩
    · exact ⟨(k, c), rfl, .inr ⟨(k, c), rfl, rfl⟩⟩

/-- A write keeps the canonical form. -/
theorem Memory.wf_write (m : Memory) (a : Nat) (v : Byte) (h : Memory.wf m = true) :
    Memory.wf (Memory.write m a v) = true := by
  induction m with
  | nil => rfl
  | cons e m ih =>
    obtain ⟨k, c⟩ := e
    obtain ⟨hk, hm⟩ := Memory.wf_cons.mp h
    unfold Memory.write
    split_ifs with h1 h2
    · exact Memory.wf_cons.mpr ⟨fun d hd => by cases hd; exact h1, h⟩
    · subst h2; exact Memory.wf_cons.mpr ⟨hk, hm⟩
    · refine Memory.wf_cons.mpr ⟨fun d hd => ?_, ih hm⟩
      obtain ⟨d', hd', hcase⟩ := Memory.head_write m a v
      have : d = d' := Option.some.inj (hd.symm.trans hd')
      subst this
      rcases hcase with h3 | ⟨e, he, h3⟩
      · simp only [h3]; omega
      · simpa [h3] using hk e he

/-- A write below a bound keeps every index below it. -/
theorem Memory.below_write (m : Memory) (a c : Nat) (v : Byte) (h : Memory.below m c = true) (ha : a < c) :
    Memory.below (Memory.write m a v) c = true := by
  induction m with
  | nil => simp [Memory.below, Memory.write, ha]
  | cons e m ih =>
    obtain ⟨k, b⟩ := e
    simp only [Memory.below, List.all_cons, Bool.and_eq_true, decide_eq_true_eq] at h ih
    unfold Memory.write
    split_ifs with h1 h2
    · simp [Memory.below, ha, h.1]; simpa using h.2
    · simp [Memory.below, ha]; simpa using h.2
    · simp only [Memory.below, List.all_cons, Bool.and_eq_true, decide_eq_true_eq]
      exact ⟨h.1, ih h.2⟩

/-- No byte is listed at or above a bound on the indices. -/
theorem Memory.read_of_below (m : Memory) (a c : Nat) (h : Memory.below m c = true) (ha : c ≤ a) :
    Memory.read m a = none := by
  induction m with
  | nil => rfl
  | cons e m ih =>
    obtain ⟨k, b⟩ := e
    simp only [Memory.below, List.all_cons, Bool.and_eq_true, decide_eq_true_eq] at h ih
    have : k ≠ a := by omega
    simp [Memory.read, this, ih h.2]

/-- Two canonical buffers that read the same are the same data. -/
theorem Memory.ext_of_wf {m m' : Memory} (h : Memory.wf m = true) (h' : Memory.wf m' = true)
    (hr : ∀ a, Memory.read m a = Memory.read m' a) : m = m' := by
  have lt_head : ∀ (m : Memory) (k : Nat), Memory.wf m = true → (∀ d, m.head? = some d → k < d.1) →
      ∀ a, a ≤ k → Memory.read m a = none := by
    intro m
    induction m with
    | nil => intros; rfl
    | cons e m ih =>
      intro k hw hk a ha
      obtain ⟨hk', hm⟩ := Memory.wf_cons.mp hw
      have h1 := hk e rfl
      simp only [Memory.read]
      rw [if_neg (by omega)]
      exact ih e.1 hm hk' a (by omega)
  induction m generalizing m' with
  | nil =>
    cases m' with
    | nil => rfl
    | cons e m' => have := hr e.1; simp [Memory.read] at this
  | cons e m ih =>
    cases m' with
    | nil => have := hr e.1; simp [Memory.read] at this
    | cons e' m' =>
      obtain ⟨k, b⟩ := e
      obtain ⟨k', b'⟩ := e'
      obtain ⟨h1, h2⟩ := Memory.wf_cons.mp h
      obtain ⟨h1', h2'⟩ := Memory.wf_cons.mp h'
      have hk : k = k' := by
        rcases Nat.lt_trichotomy k k' with hlt | heq | hgt
        · have := hr k
          rw [lt_head ((k', b') :: m') k h' (fun d hd => by cases hd; exact hlt) k le_rfl] at this
          simp [Memory.read] at this
        · exact heq
        · have := hr k'
          rw [lt_head ((k, b) :: m) k' h (fun d hd => by cases hd; exact hgt) k' le_rfl] at this
          simp [Memory.read] at this
      subst hk
      have hb : b = b' := by simpa [Memory.read] using hr k
      subst hb
      rw [ih h2 h2' fun a => ?_]
      by_cases ha : k = a
      · subst ha; rw [lt_head m k h2 h1 k le_rfl, lt_head m' k h2' h1' k le_rfl]
      · simpa [Memory.read, ha] using hr a

end Sys2Proof.Machine
end

