-- ==== Sys2Proof/Laws/State.lean ====
section
/-! SUPPORT. One lemma for each field and each shared update of State, true by rfl: no later proof unfolds an update. -/

namespace Sys2Proof.Machine

variable (s : State) (w : Word) (e : ErrCode) (info : Byte)

/-! accept -/

@[simp] theorem accept_status : (accept w s).status = acceptedStatus w := rfl
@[simp] theorem accept_inLen : (accept w s).inLen = s.inLen := rfl
@[simp] theorem accept_outLen : (accept w s).outLen = 0#18 := rfl
@[simp] theorem accept_cap : (accept w s).cap = s.cap := rfl
@[simp] theorem accept_inBuf : (accept w s).inBuf = s.inBuf := rfl
@[simp] theorem accept_outBuf : (accept w s).outBuf = s.outBuf := rfl
@[simp] theorem accept_curOp : (accept w s).curOp = w.extractLsb' 0 2 := rfl
@[simp] theorem accept_ill : (accept w s).ill = illegalWord w := rfl
@[simp] theorem accept_n : (accept w s).n = s.inLen := rfl
@[simp] theorem accept_idx : (accept w s).idx = 0#17 := rfl
@[simp] theorem accept_outPtr : (accept w s).outPtr = 0#18 := rfl
@[simp] theorem accept_phase : (accept w s).phase = .check := rfl
@[simp] theorem accept_pairSr : (accept w s).pairSr = s.pairSr := rfl
@[simp] theorem accept_half : (accept w s).half = s.half := rfl
@[simp] theorem accept_sr40 : (accept w s).sr40 = s.sr40 := rfl
@[simp] theorem accept_loads : (accept w s).loads = s.loads := rfl
@[simp] theorem accept_syms : (accept w s).syms = s.syms := rfl
@[simp] theorem accept_response : (accept w s).response = s.response := rfl
@[simp] theorem accept_agenda : (accept w s).agenda = s.agenda := rfl
@[simp] theorem accept_gap : (accept w s).gap = s.gap := rfl
@[simp] theorem accept_draws : (accept w s).draws = s.draws := rfl
@[simp] theorem accept_epoch : (accept w s).epoch = s.epoch := rfl

/-! complete -/

@[simp] theorem complete_status : (complete s).status = { s.status with state := .done, errCode := .none, errInfo := 0#8 } := rfl
@[simp] theorem complete_inLen : (complete s).inLen = s.inLen := rfl
@[simp] theorem complete_outLen : (complete s).outLen = s.outPtr := rfl
@[simp] theorem complete_cap : (complete s).cap = s.cap := rfl
@[simp] theorem complete_inBuf : (complete s).inBuf = s.inBuf := rfl
@[simp] theorem complete_outBuf : (complete s).outBuf = s.outBuf := rfl
@[simp] theorem complete_curOp : (complete s).curOp = s.curOp := rfl
@[simp] theorem complete_ill : (complete s).ill = s.ill := rfl
@[simp] theorem complete_n : (complete s).n = s.n := rfl
@[simp] theorem complete_idx : (complete s).idx = s.idx := rfl
@[simp] theorem complete_outPtr : (complete s).outPtr = s.outPtr := rfl
@[simp] theorem complete_phase : (complete s).phase = s.phase := rfl
@[simp] theorem complete_pairSr : (complete s).pairSr = s.pairSr := rfl
@[simp] theorem complete_half : (complete s).half = s.half := rfl
@[simp] theorem complete_sr40 : (complete s).sr40 = s.sr40 := rfl
@[simp] theorem complete_loads : (complete s).loads = s.loads := rfl
@[simp] theorem complete_syms : (complete s).syms = s.syms := rfl
@[simp] theorem complete_response : (complete s).response = s.response := rfl
@[simp] theorem complete_agenda : (complete s).agenda = s.agenda := rfl
@[simp] theorem complete_gap : (complete s).gap = s.gap := rfl
@[simp] theorem complete_draws : (complete s).draws = s.draws := rfl
@[simp] theorem complete_epoch : (complete s).epoch = s.epoch := rfl

/-! raise -/

@[simp] theorem raise_status : (raise e info s).status = { s.status with state := .error, errCode := e, errInfo := info } := rfl
@[simp] theorem raise_inLen : (raise e info s).inLen = s.inLen := rfl
@[simp] theorem raise_outLen : (raise e info s).outLen = s.outLen := rfl
@[simp] theorem raise_cap : (raise e info s).cap = s.cap := rfl
@[simp] theorem raise_inBuf : (raise e info s).inBuf = s.inBuf := rfl
@[simp] theorem raise_outBuf : (raise e info s).outBuf = s.outBuf := rfl
@[simp] theorem raise_curOp : (raise e info s).curOp = s.curOp := rfl
@[simp] theorem raise_ill : (raise e info s).ill = s.ill := rfl
@[simp] theorem raise_n : (raise e info s).n = s.n := rfl
@[simp] theorem raise_idx : (raise e info s).idx = s.idx := rfl
@[simp] theorem raise_outPtr : (raise e info s).outPtr = s.outPtr := rfl
@[simp] theorem raise_phase : (raise e info s).phase = s.phase := rfl
@[simp] theorem raise_pairSr : (raise e info s).pairSr = s.pairSr := rfl
@[simp] theorem raise_half : (raise e info s).half = s.half := rfl
@[simp] theorem raise_sr40 : (raise e info s).sr40 = s.sr40 := rfl
@[simp] theorem raise_loads : (raise e info s).loads = s.loads := rfl
@[simp] theorem raise_syms : (raise e info s).syms = s.syms := rfl
@[simp] theorem raise_response : (raise e info s).response = s.response := rfl
@[simp] theorem raise_agenda : (raise e info s).agenda = s.agenda := rfl
@[simp] theorem raise_gap : (raise e info s).gap = s.gap := rfl
@[simp] theorem raise_draws : (raise e info s).draws = s.draws := rfl
@[simp] theorem raise_epoch : (raise e info s).epoch = s.epoch := rfl

/-! resetBlock -/

@[simp] theorem resetBlock_status : (resetBlock s).status = State.reset.status := rfl
@[simp] theorem resetBlock_inLen : (resetBlock s).inLen = State.reset.inLen := rfl
@[simp] theorem resetBlock_outLen : (resetBlock s).outLen = State.reset.outLen := rfl
@[simp] theorem resetBlock_cap : (resetBlock s).cap = s.cap := rfl
@[simp] theorem resetBlock_inBuf : (resetBlock s).inBuf = State.reset.inBuf := rfl
@[simp] theorem resetBlock_outBuf : (resetBlock s).outBuf = State.reset.outBuf := rfl
@[simp] theorem resetBlock_curOp : (resetBlock s).curOp = State.reset.curOp := rfl
@[simp] theorem resetBlock_ill : (resetBlock s).ill = State.reset.ill := rfl
@[simp] theorem resetBlock_n : (resetBlock s).n = State.reset.n := rfl
@[simp] theorem resetBlock_idx : (resetBlock s).idx = State.reset.idx := rfl
@[simp] theorem resetBlock_outPtr : (resetBlock s).outPtr = State.reset.outPtr := rfl
@[simp] theorem resetBlock_phase : (resetBlock s).phase = State.reset.phase := rfl
@[simp] theorem resetBlock_pairSr : (resetBlock s).pairSr = State.reset.pairSr := rfl
@[simp] theorem resetBlock_half : (resetBlock s).half = State.reset.half := rfl
@[simp] theorem resetBlock_sr40 : (resetBlock s).sr40 = State.reset.sr40 := rfl
@[simp] theorem resetBlock_loads : (resetBlock s).loads = State.reset.loads := rfl
@[simp] theorem resetBlock_syms : (resetBlock s).syms = State.reset.syms := rfl
@[simp] theorem resetBlock_response : (resetBlock s).response = State.reset.response := rfl
@[simp] theorem resetBlock_agenda : (resetBlock s).agenda = s.agenda := rfl
@[simp] theorem resetBlock_gap : (resetBlock s).gap = s.gap := rfl
@[simp] theorem resetBlock_draws : (resetBlock s).draws = s.draws := rfl
@[simp] theorem resetBlock_epoch : (resetBlock s).epoch = s.epoch + 1 := rfl

/-! The reset values (R39) that the spec states. -/

@[simp] theorem reset_status : State.reset.status = { state := .idle, errCode := .none, errInfo := 0#8, op := 0#2 } := rfl
@[simp] theorem reset_inLen : State.reset.inLen = 0#17 := rfl
@[simp] theorem reset_outLen : State.reset.outLen = 0#18 := rfl
@[simp] theorem reset_cap : State.reset.cap = Config.inCap := rfl
@[simp] theorem reset_inBuf : State.reset.inBuf = [] := rfl
@[simp] theorem reset_outBuf : State.reset.outBuf = [] := rfl
@[simp] theorem acceptedStatus_state : (acceptedStatus w).state = .busy := rfl
@[simp] theorem acceptedStatus_op : (acceptedStatus w).op = w.extractLsb' 0 2 := rfl

/-- A running command makes a request without effect (R104). -/
theorem request_of_busy (h : s.status.state = .busy) : request w s = s := by simp [request, h]

/-- Any other request is accepted (R101). -/
theorem request_of_not_busy (h : s.status.state ≠ .busy) : request w s = accept w s := by simp [request, h]

end Sys2Proof.Machine
end

