-- ==== Sys2Proof/Laws/Units.lean ====
section
/-! SUPPORT. What the shared operand operations and one step of each unit can do: how each runs when its operands are there,
and what follows when it answers a next state. -/

namespace Sys2Proof.Machine

variable {s t : State} {k : State → Result}

/-! ### withInput and emit -/

/-- The input byte is there. -/
theorem withInput_of_read {i : Nat} {kb : Byte → Result} {b : Byte} (hi : i < s.cap.toNat)
    (hb : Memory.read s.inBuf i = some b) : withInput s i kb = kb b := by simp [withInput, hi, hb]

/-- The input byte is not written: the model's fault (U6). -/
theorem withInput_of_unwritten {i : Nat} {kb : Byte → Result} (hi : i < s.cap.toNat)
    (hb : Memory.read s.inBuf i = none) : withInput s i kb = .fault (.unwrittenInput i) := by simp [withInput, hi, hb]

/-- If reading an input byte leads to a next state, the byte was there. -/
theorem withInput_next {i : Nat} {kb : Byte → Result} (h : withInput s i kb = .next t) :
    ∃ b, i < s.cap.toNat ∧ Memory.read s.inBuf i = some b ∧ kb b = .next t := by
  unfold withInput at h
  split at h
  · rename_i hi
    split at h
    · rename_i b hb; exact ⟨b, hi, hb, h⟩
    · cases h
  · cases h

/-- If reading an input byte leads to a fault, it is its own, or a later one. -/
theorem withInput_fault {i : Nat} {kb : Byte → Result} {f : Fault} (h : withInput s i kb = .fault f) :
    (i < s.cap.toNat ∧ Memory.read s.inBuf i = none ∧ f = .unwrittenInput i) ∨
    (s.cap.toNat ≤ i ∧ f = .inputOverrun i) ∨
    ∃ b, i < s.cap.toNat ∧ Memory.read s.inBuf i = some b ∧ kb b = .fault f := by
  unfold withInput at h
  split at h
  · rename_i hi
    split at h
    · rename_i b hb; exact .inr (.inr ⟨b, hi, hb, h⟩)
    · rename_i hb; cases h; exact .inl ⟨hi, hb, rfl⟩
  · rename_i hi; cases h; exact .inr (.inl ⟨by omega, rfl⟩)

/-- There is room for an output byte. -/
theorem emit_of_room {v : Byte} (h : s.outPtr.toNat < outCap s) :
    emit v s k = k { s with outBuf := Memory.write s.outBuf s.outPtr.toNat v, outPtr := s.outPtr + 1#18 } := by
  simp [emit, h]

/-- If putting out a byte leads to a next state, there was room. -/
theorem emit_next {v : Byte} (h : emit v s k = .next t) :
    s.outPtr.toNat < outCap s ∧
      k { s with outBuf := Memory.write s.outBuf s.outPtr.toNat v, outPtr := s.outPtr + 1#18 } = .next t := by
  unfold emit at h
  split at h
  · rename_i hr; exact ⟨hr, h⟩
  · cases h

/-- If putting out a byte leads to a fault, it is its own, or a later one. -/
theorem emit_fault {v : Byte} {f : Fault} (h : emit v s k = .fault f) :
    outCap s ≤ s.outPtr.toNat ∨
      k { s with outBuf := Memory.write s.outBuf s.outPtr.toNat v, outPtr := s.outPtr + 1#18 } = .fault f := by
  unfold emit at h
  split at h
  · exact .inr h
  · exact .inl (by omega)

/-- Within OUT_CAP the output cursor does not wrap (R112). -/
theorem outPtr_succ (h : s.outPtr.toNat < outCap s) : (s.outPtr + 1#18).toNat = s.outPtr.toNat + 1 := by
  have := s.cap.isLt
  simp only [outCap] at h
  rw [BitVec.toNat_add]
  simp only [BitVec.toNat_ofNat, Nat.reducePow, Nat.reduceMod] at *
  omega

/-- Below N the input cursor does not wrap (R112). -/
theorem idx_succ {n : BitVec 17} (h : s.idx.toNat < n.toNat) : (s.idx + 1#17).toNat = s.idx.toNat + 1 := by
  have := n.isLt
  rw [BitVec.toNat_add]
  simp only [BitVec.toNat_ofNat, Nat.reducePow, Nat.reduceMod] at *
  omega

/-! ### hex_encoder -/

/-- The state after a byte of hex_encoder (R124). -/
abbrev hexEncoded (s : State) (b : Byte) : State :=
  { s with
    outBuf := Memory.write (Memory.write s.outBuf s.outPtr.toNat (hexLut (hiNibble b))) (s.outPtr + 1#18).toNat
      (hexLut (loNibble b))
    outPtr := s.outPtr + 1#18 + 1#18
    idx := s.idx + 1#17 }

theorem hexEncoderStep_byte {b : Byte} (h : s.idx < s.n) (hi : s.idx.toNat < s.cap.toNat)
    (hb : Memory.read s.inBuf s.idx.toNat = some b) (h1 : s.outPtr.toNat < outCap s)
    (h2 : (s.outPtr + 1#18).toNat < outCap s) : hexEncoderStep s = .next (hexEncoded s b) := by
  rw [hexEncoderStep, if_pos h, withInput_of_read hi hb, emit_of_room h1, emit_of_room h2]

theorem hexEncoderStep_end (h : ¬ s.idx < s.n) : hexEncoderStep s = .next (complete s) := by
  rw [hexEncoderStep, if_neg h]

theorem hexEncoderStep_next (h : hexEncoderStep s = .next t) :
    (s.idx < s.n ∧ s.outPtr.toNat < outCap s ∧ (s.outPtr + 1#18).toNat < outCap s ∧
      ∃ b, s.idx.toNat < s.cap.toNat ∧ Memory.read s.inBuf s.idx.toNat = some b ∧ t = hexEncoded s b) ∨
    (¬ s.idx < s.n ∧ t = complete s) := by
  unfold hexEncoderStep at h
  split at h
  · rename_i hlt
    obtain ⟨b, hi, hb, h⟩ := withInput_next h
    obtain ⟨h1, h⟩ := emit_next h
    obtain ⟨h2, h⟩ := emit_next h
    cases h
    exact .inl ⟨hlt, h1, h2, b, hi, hb, rfl⟩
  · rename_i hlt; cases h; exact .inr ⟨hlt, rfl⟩

/-! ### hex_decoder -/

/-- The state after a high character of hex_decoder (R146). -/
abbrev hexHighTaken (s : State) (v : Nibble) : State :=
  { s with pairSr := shiftPair s.pairSr v, half := true, idx := s.idx + 1#17 }

/-- The state after a low character of hex_decoder (R146): the byte is out. -/
abbrev hexLowTaken (s : State) (v : Nibble) : State :=
  { s with
    pairSr := shiftPair s.pairSr v
    half := false
    idx := s.idx + 1#17
    outBuf := Memory.write s.outBuf s.outPtr.toNat (shiftPair s.pairSr v)
    outPtr := s.outPtr + 1#18 }

theorem hexDecoderStep_invalid {c : Byte} (h : s.idx.toNat < consumed s.n.toNat) (hi : s.idx.toNat < s.cap.toNat)
    (hc : Memory.read s.inBuf s.idx.toNat = some c) (hv : decLut c = none) :
    hexDecoderStep s = .next (raise .invalidCharacter c s) := by
  simp only [hexDecoderStep, h, if_true, withInput_of_read hi hc, hv]

theorem hexDecoderStep_high {c : Byte} {v : Nibble} (h : s.idx.toNat < consumed s.n.toNat)
    (hi : s.idx.toNat < s.cap.toNat) (hc : Memory.read s.inBuf s.idx.toNat = some c) (hv : decLut c = some v)
    (hh : s.half = false) : hexDecoderStep s = .next (hexHighTaken s v) := by
  simp only [hexDecoderStep, h, if_true, withInput_of_read hi hc, hv, hexDecoderTake, hh, Bool.not_false]
  rfl

theorem hexDecoderStep_low {c : Byte} {v : Nibble} (h : s.idx.toNat < consumed s.n.toNat)
    (hi : s.idx.toNat < s.cap.toNat) (hc : Memory.read s.inBuf s.idx.toNat = some c) (hv : decLut c = some v)
    (hh : s.half = true) (hr : s.outPtr.toNat < outCap s) : hexDecoderStep s = .next (hexLowTaken s v) := by
  have hr' : ∀ (p : BitVec 8) (b : Bool) (x : BitVec 17),
      ({ s with pairSr := p, half := b, idx := x } : State).outPtr.toNat <
        outCap { s with pairSr := p, half := b, idx := x } := fun _ _ _ => hr
  simp only [hexDecoderStep, h, if_true, withInput_of_read hi hc, hv, hexDecoderTake, hh, emit_of_room (hr' _ _ _),
    Bool.not_true]

theorem hexDecoderStep_end (h : ¬ s.idx.toNat < consumed s.n.toNat) : hexDecoderStep s = .next (complete s) := by
  rw [hexDecoderStep, if_neg h]

theorem hexDecoderStep_next (h : hexDecoderStep s = .next t) :
    (s.idx.toNat < consumed s.n.toNat ∧ s.idx.toNat < s.cap.toNat ∧
      ∃ c, Memory.read s.inBuf s.idx.toNat = some c ∧
        ((decLut c = none ∧ t = raise .invalidCharacter c s) ∨
          ∃ v, decLut c = some v ∧
            ((s.half = false ∧ t = hexHighTaken s v) ∨
              (s.half = true ∧ s.outPtr.toNat < outCap s ∧ t = hexLowTaken s v)))) ∨
    (¬ s.idx.toNat < consumed s.n.toNat ∧ t = complete s) := by
  unfold hexDecoderStep at h
  split at h
  · rename_i hlt
    obtain ⟨c, hi, hc, h⟩ := withInput_next h
    refine .inl ⟨hlt, hi, c, hc, ?_⟩
    split at h
    · rename_i hv; cases h; exact .inl ⟨hv, rfl⟩
    · rename_i v hv
      refine .inr ⟨v, hv, ?_⟩
      unfold hexDecoderTake at h
      cases hh : s.half with
      | false => simp only [hh, Bool.false_eq_true, if_false, Bool.not_false] at h; cases h; exact .inl ⟨rfl, rfl⟩
      | true =>
        simp only [hh, if_true, Bool.not_true] at h
        obtain ⟨h1, h⟩ := emit_next h
        cases h
        exact .inr ⟨rfl, h1, rfl⟩
  · rename_i hlt; cases h; exact .inr ⟨hlt, rfl⟩

/-! ### base32_encoder -/

/-- The state after a load of base32_encoder (R165). -/
abbrev byteLoaded (s : State) (b : Byte) : State :=
  { s with sr40 := shiftLoad s.sr40 b, idx := s.idx + 1#17, loads := s.loads + 1#3 }

/-- The state after an extraction of base32_encoder (R166). -/
abbrev symbolOut (s : State) : State :=
  countSymbol { s with
    outBuf := Memory.write s.outBuf s.outPtr.toNat (b32Lut (topSymbol s.sr40))
    outPtr := s.outPtr + 1#18
    sr40 := shiftSymbol s.sr40 }

theorem base32EncoderStep_length (h : s.n.toNat % 5 ≠ 0) :
    base32EncoderStep s = .next (raise .invalidLength 5#8 s) := by
  rw [base32EncoderStep, if_pos h]

theorem base32EncoderStep_load {b : Byte} (h5 : s.n.toNat % 5 = 0) (hl : s.loads < 5#3) (h : s.idx < s.n)
    (hi : s.idx.toNat < s.cap.toNat) (hb : Memory.read s.inBuf s.idx.toNat = some b) :
    base32EncoderStep s = .next (byteLoaded s b) := by
  rw [base32EncoderStep, if_neg (by simpa using h5), if_pos ⟨hl, h⟩, withInput_of_read hi hb]

theorem base32EncoderStep_extract (h5 : s.n.toNat % 5 = 0) (hl : s.loads = 5#3) (hr : s.outPtr.toNat < outCap s) :
    base32EncoderStep s = .next (symbolOut s) := by
  have : ¬ (s.loads < 5#3 ∧ s.idx < s.n) := fun h => absurd h.1 (by rw [hl]; decide)
  rw [base32EncoderStep, if_neg (by simpa using h5), if_neg this, base32Extract, if_pos hl, emit_of_room hr]

theorem base32EncoderStep_end (h5 : s.n.toNat % 5 = 0) (h : ¬ (s.loads < 5#3 ∧ s.idx < s.n)) (hl : s.loads ≠ 5#3) :
    base32EncoderStep s = .next (complete s) := by
  rw [base32EncoderStep, if_neg (by simpa using h5), if_neg h, base32Extract, if_neg hl]

theorem base32EncoderStep_next (h : base32EncoderStep s = .next t) :
    (s.n.toNat % 5 ≠ 0 ∧ t = raise .invalidLength 5#8 s) ∨
    (s.n.toNat % 5 = 0 ∧ s.loads < 5#3 ∧ s.idx < s.n ∧ s.idx.toNat < s.cap.toNat ∧
      ∃ b, Memory.read s.inBuf s.idx.toNat = some b ∧ t = byteLoaded s b) ∨
    (s.n.toNat % 5 = 0 ∧ s.loads = 5#3 ∧ s.outPtr.toNat < outCap s ∧ t = symbolOut s) ∨
    (s.n.toNat % 5 = 0 ∧ ¬ (s.loads < 5#3 ∧ s.idx < s.n) ∧ s.loads ≠ 5#3 ∧ t = complete s) := by
  unfold base32EncoderStep at h
  split at h
  · rename_i h5; cases h; exact .inl ⟨h5, rfl⟩
  · rename_i h5
    have h5 : s.n.toNat % 5 = 0 := by simpa using h5
    split at h
    · rename_i hl
      obtain ⟨b, hi, hb, h⟩ := withInput_next h
      cases h
      exact .inr (.inl ⟨h5, hl.1, hl.2, hi, b, hb, rfl⟩)
    · rename_i hl
      unfold base32Extract at h
      split at h
      · rename_i h55
        obtain ⟨h1, h⟩ := emit_next h
        cases h
        exact .inr (.inr (.inl ⟨h5, h55, h1, rfl⟩))
      · rename_i h55; cases h; exact .inr (.inr (.inr ⟨h5, hl, h55, rfl⟩))

end Sys2Proof.Machine
end

