-- ==== Sys2Proof/Laws/CoreStep.lean ====
section
/-! SUPPORT. What a core step and a run of core steps can do: the cases of a step, its frame, and induction over runs. -/

namespace Sys2Proof.Machine

variable {s t : State}

/-! ### One core step -/

theorem coreStep_of_not_busy (h : s.status.state ≠ .busy) : coreStep s = .next s := by simp [coreStep, h]

theorem coreStep_check (hb : s.status.state = .busy) (hp : s.phase = .check) : coreStep s = .next (checkStep s) := by
  simp [coreStep, hb, hp]

theorem coreStep_run (hb : s.status.state = .busy) (hp : s.phase = .run) : coreStep s = runStep s := by
  simp [coreStep, hb, hp]

theorem coreStep_hexEncoder (hb : s.status.state = .busy) (hp : s.phase = .run) (ho : s.curOp = 0#2) :
    coreStep s = hexEncoderStep s := by simp [coreStep, hb, hp, runStep, ho]

theorem coreStep_hexDecoder (hb : s.status.state = .busy) (hp : s.phase = .run) (ho : s.curOp = 1#2) :
    coreStep s = hexDecoderStep s := by simp [coreStep, hb, hp, runStep, ho]

theorem coreStep_base32Encoder (hb : s.status.state = .busy) (hp : s.phase = .run) (ho : s.curOp = 2#2) :
    coreStep s = base32EncoderStep s := by simp [coreStep, hb, hp, runStep, ho]

/-- The state after a passed CHECK step (R105). -/
abbrev checked (s : State) : State :=
  { s with phase := .run, half := false, pairSr := 0#8, loads := 0#3, syms := 0#4, sr40 := 0#40 }

theorem checkStep_ill (h : s.ill = true) : checkStep s = raise .illegalOp 0#8 s := by simp [checkStep, check, h]

theorem checkStep_capacity (h : s.ill = false) (hn : s.cap < s.n) : checkStep s = raise .capacityExceeded 0#8 s := by
  simp [checkStep, check, h, hn]

theorem checkStep_pass (h : s.ill = false) (hn : s.n ≤ s.cap) : checkStep s = checked s := by
  have : ¬ s.cap < s.n := by simpa [BitVec.not_lt] using hn
  simp [checkStep, check, h, this]

/-- The three ends of a CHECK step. -/
theorem checkStep_cases (s : State) :
    (s.ill = true ∧ checkStep s = raise .illegalOp 0#8 s) ∨
    (s.ill = false ∧ s.cap < s.n ∧ checkStep s = raise .capacityExceeded 0#8 s) ∨
    (s.ill = false ∧ s.n ≤ s.cap ∧ checkStep s = checked s) := by
  cases hi : s.ill with
  | true => exact .inl ⟨rfl, checkStep_ill hi⟩
  | false =>
    by_cases hn : s.cap < s.n
    · exact .inr (.inl ⟨rfl, hn, checkStep_capacity hi hn⟩)
    · have hn : s.n ≤ s.cap := by simpa [BitVec.not_lt] using hn
      exact .inr (.inr ⟨rfl, hn, checkStep_pass hi hn⟩)

/-- Everything a core step can do when it answers a next state (R105). -/
theorem coreStep_cases (h : coreStep s = .next t) :
    (s.status.state ≠ .busy ∧ t = s) ∨
    (s.status.state = .busy ∧ s.phase = .check ∧ t = checkStep s) ∨
    (s.status.state = .busy ∧ s.phase = .run ∧ s.curOp = 0#2 ∧ hexEncoderStep s = .next t) ∨
    (s.status.state = .busy ∧ s.phase = .run ∧ s.curOp = 1#2 ∧ hexDecoderStep s = .next t) ∨
    (s.status.state = .busy ∧ s.phase = .run ∧ s.curOp = 2#2 ∧ base32EncoderStep s = .next t) := by
  by_cases hb : s.status.state = .busy
  · cases hp : s.phase with
    | check => rw [coreStep_check hb hp] at h; cases h; exact .inr (.inl ⟨hb, rfl, rfl⟩)
    | run =>
      rw [coreStep_run hb hp] at h
      unfold runStep at h
      split_ifs at h with h0 h1 h2
      · exact .inr (.inr (.inl ⟨hb, rfl, h0, h⟩))
      · exact .inr (.inr (.inr (.inl ⟨hb, rfl, h1, h⟩)))
      · exact .inr (.inr (.inr (.inr ⟨hb, rfl, h2, h⟩)))
  · rw [coreStep_of_not_busy hb] at h; cases h; exact .inl ⟨hb, rfl⟩

/-- How a busy core step leaves the flags and the output: it goes on, completes or raises an error (R106, R200, R41). -/
theorem coreStep_status (h : coreStep s = .next t) (hb : s.status.state = .busy) :
    (t.status = s.status ∧ t.outLen = s.outLen) ∨
    t = complete s ∨
    ∃ e info, e ≠ .none ∧ t = raise e info s := by
  rcases coreStep_cases h with ⟨hn, -⟩ | ⟨-, -, rfl⟩ | ⟨-, -, -, h⟩ | ⟨-, -, -, h⟩ | ⟨-, -, -, h⟩
  · exact absurd hb hn
  · rcases checkStep_cases s with ⟨-, h⟩ | ⟨-, -, h⟩ | ⟨-, -, h⟩
    · exact .inr (.inr ⟨_, _, by decide, h⟩)
    · exact .inr (.inr ⟨_, _, by decide, h⟩)
    · rw [h]; exact .inl ⟨rfl, rfl⟩
  · rcases hexEncoderStep_next h with ⟨-, -, -, b, -, -, rfl⟩ | ⟨-, rfl⟩
    · exact .inl ⟨rfl, rfl⟩
    · exact .inr (.inl rfl)
  · rcases hexDecoderStep_next h with ⟨-, -, c, -, ⟨-, rfl⟩ | ⟨v, -, ⟨-, rfl⟩ | ⟨-, -, rfl⟩⟩⟩ | ⟨-, rfl⟩
    · exact .inr (.inr ⟨_, _, by decide, rfl⟩)
    · exact .inl ⟨rfl, rfl⟩
    · exact .inl ⟨rfl, rfl⟩
    · exact .inr (.inl rfl)
  · rcases base32EncoderStep_next h with ⟨-, rfl⟩ | ⟨-, -, -, -, b, -, rfl⟩ | ⟨-, -, -, rfl⟩ | ⟨-, -, -, rfl⟩
    · exact .inr (.inr ⟨_, _, by decide, rfl⟩)
    · exact .inl ⟨rfl, rfl⟩
    · refine .inl ?_; unfold symbolOut countSymbol; split <;> exact ⟨rfl, rfl⟩
    · exact .inr (.inl rfl)

/-- What a core step never touches. -/
abbrev CoreFrame (s t : State) : Prop :=
  SameInput s t ∧ t.gap = s.gap ∧ t.curOp = s.curOp ∧ t.ill = s.ill ∧ t.n = s.n ∧ t.status.op = s.status.op

theorem CoreFrame.refl (s : State) : CoreFrame s s := by simp [CoreFrame, SameInput]

theorem CoreFrame.trans {s t u : State} (h : CoreFrame s t) (h' : CoreFrame t u) : CoreFrame s u := by
  unfold CoreFrame SameInput at *
  refine ⟨⟨?_, ?_, ?_, ?_, ?_, ?_, ?_⟩, ?_, ?_, ?_, ?_, ?_⟩ <;> simp_all

/-- The frame of a core step (R24, R42, R102). -/
theorem coreStep_frame (h : coreStep s = .next t) : CoreFrame s t := by
  unfold CoreFrame SameInput
  rcases coreStep_cases h with ⟨-, rfl⟩ | ⟨-, -, rfl⟩ | ⟨-, -, -, h⟩ | ⟨-, -, -, h⟩ | ⟨-, -, -, h⟩
  · simp
  · rcases checkStep_cases s with ⟨-, h⟩ | ⟨-, -, h⟩ | ⟨-, -, h⟩ <;> simp [h]
  · rcases hexEncoderStep_next h with ⟨-, -, -, b, -, -, rfl⟩ | ⟨-, rfl⟩ <;> simp
  · rcases hexDecoderStep_next h with ⟨-, -, c, -, ⟨-, rfl⟩ | ⟨v, -, ⟨-, rfl⟩ | ⟨-, -, rfl⟩⟩⟩ | ⟨-, rfl⟩ <;> simp
  · rcases base32EncoderStep_next h with ⟨-, rfl⟩ | ⟨-, -, -, -, b, -, rfl⟩ | ⟨-, -, -, rfl⟩ | ⟨-, -, -, rfl⟩
    · simp
    · simp
    · unfold symbolOut countSymbol; split <;> simp
    · simp

/-- What a core step does to OUT (R70): it appends at OUT_PTR, which only grows, and leaves every other byte alone. -/
theorem coreStep_output (h : coreStep s = .next t) :
    s.outPtr.toNat ≤ t.outPtr.toNat ∧
    ∀ j, (j < s.outPtr.toNat ∨ t.outPtr.toNat ≤ j) → Memory.read t.outBuf j = Memory.read s.outBuf j := by
  rcases coreStep_cases h with ⟨-, rfl⟩ | ⟨-, -, rfl⟩ | ⟨-, -, -, h⟩ | ⟨-, -, -, h⟩ | ⟨-, -, -, h⟩
  · simp
  · rcases checkStep_cases s with ⟨-, h⟩ | ⟨-, -, h⟩ | ⟨-, -, h⟩ <;> simp [h]
  · rcases hexEncoderStep_next h with ⟨-, h1, h2, b, -, -, rfl⟩ | ⟨-, rfl⟩
    · have e1 := outPtr_succ h1
      have e2 : (s.outPtr + 1#18 + 1#18).toNat = (s.outPtr + 1#18).toNat + 1 :=
        outPtr_succ (s := { s with outPtr := s.outPtr + 1#18 }) h2
      refine ⟨by simp only [e2, e1]; omega, fun j hj => ?_⟩
      simp only [e2, e1] at hj ⊢
      rw [Memory.read_write_other _ _ (by omega), Memory.read_write_other _ _ (by omega)]
    · simp
  · rcases hexDecoderStep_next h with ⟨-, -, c, -, ⟨-, rfl⟩ | ⟨v, -, ⟨-, rfl⟩ | ⟨-, h1, rfl⟩⟩⟩ | ⟨-, rfl⟩
    · simp
    · simp
    · have e1 := outPtr_succ h1
      refine ⟨by simp only [e1]; omega, fun j hj => ?_⟩
      simp only [e1] at hj ⊢
      rw [Memory.read_write_other _ _ (by omega)]
    · simp
  · rcases base32EncoderStep_next h with ⟨-, rfl⟩ | ⟨-, -, -, -, b, -, rfl⟩ | ⟨-, -, h1, rfl⟩ | ⟨-, -, -, rfl⟩
    · simp
    · simp
    · have e1 := outPtr_succ h1
      have hp : (symbolOut s).outPtr = s.outPtr + 1#18 := by unfold symbolOut countSymbol; split <;> rfl
      have ho : (symbolOut s).outBuf = Memory.write s.outBuf s.outPtr.toNat (b32Lut (topSymbol s.sr40)) := by
        unfold symbolOut countSymbol; split <;> rfl
      rw [hp, ho, e1]
      exact ⟨by omega, fun j hj => Memory.read_write_other _ _ (by omega)⟩
    · simp

theorem withInput_not_refused {i : Nat} {kb : Byte → Result} {r : Refusal} (hk : ∀ b, kb b ≠ .refused r) :
    withInput s i kb ≠ .refused r := by
  unfold withInput; split
  · split
    · exact hk _
    · simp
  · simp

theorem emit_not_refused {v : Byte} {k : State → Result} {r : Refusal} (hk : ∀ u, k u ≠ .refused r) :
    emit v s k ≠ .refused r := by
  unfold emit; split
  · exact hk _
  · simp

/-- No core step is a refusal. -/
theorem coreStep_not_refused (s : State) (r : Refusal) : coreStep s ≠ .refused r := by
  unfold coreStep runStep
  split
  · split
    · simp
    · split_ifs
      · unfold hexEncoderStep; split
        · exact withInput_not_refused fun b => emit_not_refused fun u => emit_not_refused fun v => by simp
        · simp
      · unfold hexDecoderStep hexDecoderTake; split
        · refine withInput_not_refused fun b => ?_
          split
          · simp
          · split
            · exact emit_not_refused fun u => by simp
            · simp
        · simp
      · unfold base32EncoderStep base32Extract; split_ifs
        · simp
        · exact withInput_not_refused fun b => by simp
        · exact emit_not_refused fun u => by simp
        · simp
      · simp
  · simp

/-! ### Runs of core steps -/

@[simp] theorem andThen_next (s : State) (k : State → Result) : andThen (.next s) k = k s := rfl
@[simp] theorem andThen_fault (f : Fault) (k : State → Result) : andThen (.fault f) k = .fault f := rfl
@[simp] theorem andThen_refused (r : Refusal) (k : State → Result) : andThen (.refused r) k = .refused r := rfl

/-- A next state after two parts came through a next state between them. -/
theorem andThen_eq_next {r : Result} {k : State → Result} (h : andThen r k = .next t) : ∃ u, r = .next u ∧ k u = .next t := by
  cases r with
  | next u => exact ⟨u, rfl, h⟩
  | fault f => cases h
  | refused f => cases h

theorem andThen_eq_fault {r : Result} {k : State → Result} {f : Fault} (h : andThen r k = .fault f) :
    r = .fault f ∨ ∃ u, r = .next u ∧ k u = .fault f := by
  cases r with
  | next u => exact .inr ⟨u, rfl, h⟩
  | fault f => exact .inl h
  | refused f => cases h

@[simp] theorem coreRun_zero (s : State) : coreRun 0 s = .next s := rfl

theorem coreRun_succ (k : Nat) (s : State) : coreRun (k + 1) s = andThen (coreStep s) (coreRun k) := rfl

/-- One step that is known, then the rest. -/
theorem coreRun_step {k : Nat} (h : coreStep s = .next t) : coreRun (k + 1) s = coreRun k t := by
  rw [coreRun_succ, h, andThen_next]

/-- Outside BUSY the core stands still (R100). -/
theorem coreRun_of_not_busy (k : Nat) (h : s.status.state ≠ .busy) : coreRun k s = .next s := by
  induction k with
  | zero => rfl
  | succ k ih => rw [coreRun_step (coreStep_of_not_busy h), ih]

/-- A run is its first part and then its second. -/
theorem coreRun_add (m k : Nat) (s : State) : coreRun (m + k) s = andThen (coreRun m s) (coreRun k) := by
  induction m generalizing s with
  | zero => simp
  | succ m ih =>
    rw [Nat.succ_add, coreRun_succ, coreRun_succ]
    cases h : coreStep s with
    | next u => simp [ih]
    | fault f => rfl
    | refused r => rfl

/-- Once the command has ended, more core steps change nothing. -/
theorem coreRun_stable {k m : Nat} (h : coreRun k s = .next t) (ht : t.status.state ≠ .busy) (hm : k ≤ m) :
    coreRun m s = .next t := by
  obtain ⟨d, rfl⟩ := Nat.exists_eq_add_of_le hm
  rw [coreRun_add, h, andThen_next, coreRun_of_not_busy d ht]

/-- What every core step keeps, every run keeps. -/
theorem coreRun_keeps (P : State → Prop) (hstep : ∀ s t, P s → coreStep s = .next t → P t) {k : Nat}
    (h : coreRun k s = .next t) (hs : P s) : P t := by
  induction k generalizing s with
  | zero => cases h; exact hs
  | succ k ih =>
    rw [coreRun_succ] at h
    obtain ⟨u, hu, h⟩ := andThen_eq_next h
    exact ih h (hstep s u hs hu)

/-- The frame of a run. -/
theorem coreRun_frame {k : Nat} (h : coreRun k s = .next t) : CoreFrame s t :=
  coreRun_keeps (CoreFrame s) (fun _ _ hs hst => hs.trans (coreStep_frame hst)) h (CoreFrame.refl s)

/-- No run is a refusal. -/
theorem coreRun_not_refused (k : Nat) (s : State) (r : Refusal) : coreRun k s ≠ .refused r := by
  induction k generalizing s with
  | zero => simp
  | succ k ih =>
    rw [coreRun_succ]
    cases h : coreStep s with
    | next u => simpa using ih u
    | fault f => simp
    | refused f => exact absurd h (coreStep_not_refused s f)

/-- A run appends to OUT from OUT_PTR on and leaves every other byte alone. -/
theorem coreRun_output {k : Nat} (h : coreRun k s = .next t) :
    s.outPtr.toNat ≤ t.outPtr.toNat ∧
    ∀ j, (j < s.outPtr.toNat ∨ t.outPtr.toNat ≤ j) → Memory.read t.outBuf j = Memory.read s.outBuf j := by
  refine coreRun_keeps (fun u => s.outPtr.toNat ≤ u.outPtr.toNat ∧
    ∀ j, (j < s.outPtr.toNat ∨ u.outPtr.toNat ≤ j) → Memory.read u.outBuf j = Memory.read s.outBuf j) ?_ h ⟨le_rfl, by simp⟩
  intro u v ⟨hle, hr⟩ huv
  obtain ⟨hle', hr'⟩ := coreStep_output huv
  refine ⟨hle.trans hle', fun j hj => ?_⟩
  rw [hr' j (by omega), hr j (by omega)]

end Sys2Proof.Machine
end

