-- ==== Sys2Proof/Laws/Functional.lean ====
section
/-! SUPPORT. Small lemmas of the functional definitions: how they take an input apart, their bit fields as numbers, and the
input bytes as a list. -/

namespace Sys2Proof.Machine

/-! ### The input bytes -/

theorem inputBytes_succ (s : State) (k : Nat) : inputBytes s (k + 1) = inputBytes s k ++ [inValue s k] := by
  simp [inputBytes, List.range_succ]

@[simp] theorem inputBytes_length (s : State) (k : Nat) : (inputBytes s k).length = k := by simp [inputBytes]

theorem getElem?_inputBytes (s : State) (k j : Nat) :
    (inputBytes s k)[j]? = if j < k then some (inValue s j) else none := by
  simp only [inputBytes, List.getElem?_map]
  split <;> simp_all

theorem inValue_of_read {s : State} {i : Nat} {b : Byte} (h : Memory.read s.inBuf i = some b) : inValue s i = b := by
  simp [inValue, h]

/-! ### Hex -/

theorem hexEncode_append (a b : List Byte) : hexEncode (a ++ b) = hexEncode a ++ hexEncode b := by
  induction a with
  | nil => rfl
  | cons x a ih => simp [hexEncode, ih]

theorem decLut_hexLut : ∀ k : Nibble, decLut (hexLut k) = some k := by decide

theorem joinNibbles_eq_append : ∀ a b : Nibble, a ++ b = joinNibbles a b := by decide

theorem joinNibbles_nibbles : ∀ b : Byte, joinNibbles (hiNibble b) (loNibble b) = b := by decide

theorem nibbles_joinNibbles : ∀ x y : Nibble, hiNibble (joinNibbles x y) = x ∧ loNibble (joinNibbles x y) = y := by decide

/-! ### Base32 -/

theorem toNat_append' {m n : Nat} (x : BitVec m) (y : BitVec n) : (x ++ y).toNat = x.toNat * 2 ^ n + y.toNat := by
  rw [BitVec.toNat_append, Nat.shiftLeft_eq, Nat.mul_comm, ← Nat.two_pow_add_eq_or_of_lt y.isLt]

theorem groupValue_toNat (a b c d e : Byte) :
    (groupValue a b c d e).toNat =
      (((a.toNat * 256 + b.toNat) * 256 + c.toNat) * 256 + d.toNat) * 256 + e.toNat := by
  show (a ++ b ++ c ++ d ++ e).toNat = _
  rw [toNat_append', toNat_append', toNat_append', toNat_append']
  norm_num

theorem groupSymbol_toNat (v : BitVec 40) (j : Nat) : (groupSymbol v j).toNat = v.toNat / 2 ^ (35 - 5 * j) % 32 := by
  unfold groupSymbol
  rw [BitVec.extractLsb'_toNat, Nat.shiftRight_eq_div_pow]

theorem shiftLoad_toNat (sr : BitVec 40) (b : Byte) : (shiftLoad sr b).toNat = sr.toNat % 2 ^ 32 * 256 + b.toNat := by
  show (sr.extractLsb' 0 32 ++ b).toNat = _
  rw [toNat_append', BitVec.extractLsb'_toNat]
  simp

theorem shiftSymbol_toNat (v : BitVec 40) : (shiftSymbol v).toNat = v.toNat % 2 ^ 35 * 32 := by
  show (v.extractLsb' 0 35 ++ 0#5).toNat = _
  rw [toNat_append', BitVec.extractLsb'_toNat]
  simp

theorem topSymbol_toNat (v : BitVec 40) : (topSymbol v).toNat = v.toNat / 2 ^ 35 := by
  have := v.isLt
  unfold topSymbol
  rw [BitVec.extractLsb'_toNat, Nat.shiftRight_eq_div_pow]
  omega

theorem base32Groups_append (n : Nat) (s t : List Byte) (h : s.length = 5 * n) :
    base32Groups (s ++ t) = base32Groups s ++ base32Groups t := by
  induction n generalizing s with
  | zero => rw [List.length_eq_zero_iff.mp (by omega : s.length = 0)]; rfl
  | succ n ih =>
    match s, h with
    | a :: b :: c :: d :: e :: s, h =>
      have : s.length = 5 * n := by simp at h; omega
      simp [base32Groups, ih s this]

@[simp] theorem groupChars_length (v : BitVec 40) : (groupChars v).length = 8 := by simp [groupChars]

end Sys2Proof.Machine
end

