-- ==== Sys2Proof/Laws/HostProgram.lean ====
section
/-! SUPPORT. The small lemmas of the host-program layer: value operands, the host after an access, recorded faults, labels. -/

namespace Sys2Proof.Machine

variable (vars : List (Nat × Word)) (h : HostMachine) (t : Stmt) (a : Access) (b : State)

/-! ### Value operands -/

@[simp] theorem valNat_num (n : Nat) : valNat vars (.num n) = n := rfl
@[simp] theorem valNat_op (i : Instr) : valNat vars (.op i) = (encode i).toNat := rfl
@[simp] theorem valNat_var (x : Nat) : valNat vars (.var x) = (getVar vars x).toNat := rfl
@[simp] theorem evalVal_num (n : Nat) : evalVal vars (.num n) = BitVec.ofNat 32 n := rfl
@[simp] theorem evalVal_op (i : Instr) : evalVal vars (.op i) = encode i := by simp [evalVal]
@[simp] theorem evalVal_var (x : Nat) : evalVal vars (.var x) = getVar vars x := by simp [evalVal]

/-- A variable reads what was last put into it, and every other one as before. -/
theorem getVar_cons (x y : Nat) (v : Word) : getVar ((x, v) :: vars) y = if x = y then v else getVar vars y := rfl

/-! ### The host after an access -/

@[simp] theorem afterAccess_block : (afterAccess h t a b).block = b := rfl
@[simp] theorem afterAccess_prog : (afterAccess h t a b).prog = h.prog := rfl
@[simp] theorem afterAccess_pc : (afterAccess h t a b).pc = h.pc + 1 := rfl
@[simp] theorem afterAccess_ended : (afterAccess h t a b).ended = h.ended := rfl
@[simp] theorem afterAccess_faults : (afterAccess h t a b).faults = recordFault h a b := rfl

/-- A statement that reads into no variable leaves the variables alone. -/
theorem afterAccess_vars_of_none (ht : stmtTarget t = none) : (afterAccess h t a b).vars = h.vars := by
  simp [afterAccess, ht]

/-- A read puts the data lines of its response into its variable (R57, R86). -/
theorem afterAccess_vars_of_read {x : Nat} {r : Response} (ht : stmtTarget t = some x) (hr : b.response = some r) :
    (afterAccess h t a b).vars = (x, responseData r) :: h.vars := by
  simp [afterAccess, ht, hr]

/-- R206: a BUS_ERROR is recorded. -/
theorem recordFault_of_busError (hr : b.response = some .busError) :
    recordFault h a b = { pc := h.pc, access := a } :: h.faults := if_pos hr

/-- Any other response records nothing. -/
theorem recordFault_of_ok (hr : b.response ≠ some .busError) : recordFault h a b = h.faults := if_neg hr

/-! ### Labels -/

/-- The first place of a label counts (log 14). -/
theorem labelPlace_first (l : Nat) (before rest : List Stmt) (hb : ∀ t ∈ before, t ≠ .label l) (k : Nat) :
    labelPlace l (before ++ .label l :: rest) k = some (k + before.length) := by
  induction before generalizing k with
  | nil => simp [labelPlace]
  | cons t before ih =>
    have ht : t ≠ .label l := hb t (by simp)
    simp only [List.cons_append, labelPlace, if_neg ht, ih (fun u hu => hb u (by simp [hu])), List.length_cons]
    congr 1
    omega

end Sys2Proof.Machine
end

