-- ==== Sys2Proof/Laws/PerInstr.lean ====
section
/-! SUPPORT. The family EncodesLegal: each command's word is one legal CMD32 word. -/

namespace Sys2Proof.Laws.EncodesLegal

/-- The command is well formed, its word has RSV = 0 and its own OP, which is not the reserved 3, and the block does not take
it for a reserved word (R80, R81, R102). -/
def Statement (i : Instr) : Prop :=
  i.wf = true ∧ CmdWord.wf (encode i) = true ∧ rsvField (encode i) = 0#30 ∧ opField (encode i) = opcode i ∧
  Machine.illegalWord (encode i) = false

theorem encodeHex : Statement .encodeHex := by unfold Statement; decide
theorem decodeHex : Statement .decodeHex := by unfold Statement; decide
theorem encodeBase32 : Statement .encodeBase32 := by unfold Statement; decide

end Sys2Proof.Laws.EncodesLegal
end

