-- ==== Sys2Proof/Laws/Step.lean ====
section
/-! SUPPORT. What a host access and one step of the machine can do, said once: a step is an event and then core steps, whatever
the event, and what each access leaves alone. -/

namespace Sys2Proof.Machine

variable {s t : State}

/-- A word from its two fields (R80). -/
theorem word_of_fields (w : Word) : w.toNat = (rsvField w).toNat * 4 + (opField w).toNat := by
  have := w.isLt
  simp only [rsvField, opField, BitVec.extractLsb'_toNat, Nat.shiftRight_eq_div_pow]
  omega

/-- Every command is its request and the core steps after it. -/
theorem exec_eq (i : Instr) (s : State) : exec i s = settle (request (encode i) s) := by cases i <;> rfl

/-- Outside BUSY a command is accepted, and then runs for as many core steps as fall before the next event. -/
theorem exec_of_not_busy (i : Instr) (hb : s.status.state ≠ .busy) :
    exec i s = coreRun s.gap (accept (encode i) { s with gap := 0 }) := by
  rw [exec_eq, request_of_not_busy _ _ hb]; rfl

/-- A CMD write is a request, whatever its word decodes to (R101, R204). -/
theorem commandTurn_eq (w : Word) (s : State) :
    commandTurn w s = settle (request w { s with response := some .ok }) := by
  unfold commandTurn
  split
  · rename_i i h
    have : w = encode i := by
      have hd := word_of_fields w
      unfold decode at h
      split_ifs at h with h1 h2 h3 h4 <;> cases h <;> (apply BitVec.eq_of_toNat_eq; rw [hd]; simp_all) <;> rfl
    rw [exec_eq, this]
  · rfl

theorem hostAccess_cmd (w : Word) (s : State) :
    hostAccess (.write4 cmdOffset w) s = request w { s with response := some .ok } := by
  simp only [hostAccess, accessAddr, accessWidth, widthOk, regWrite, if_true, request, cmdOffset]
  simp
  split <;> rfl

/-- Every turn is its event and the core steps after it (R64). -/
theorem takeTurn_eq (e : Event) (s : State) : takeTurn e s = settle (hostEvent e s) := by
  unfold takeTurn
  split
  · rename_i w h
    have : e = .access (.write4 cmdOffset w) := by
      unfold fetchCommand at h
      split at h
      · split at h
        · rename_i h2; cases h; subst h2; rfl
        · cases h
      · cases h
    subst this
    rw [commandTurn_eq, ← hostAccess_cmd]
    rfl
  · rfl

/-- Everything a step can do: one core step when no event is to come, else the next event and its core steps. -/
theorem step_cases (h : step s = .next t) :
    (s.agenda = [] ∧ coreStep s = .next t) ∨
    ∃ u rest, s.agenda = u :: rest ∧ settle (hostEvent u.event { s with agenda := rest, gap := u.gap }) = .next t := by
  unfold step at h
  split at h
  · rename_i ha; exact .inl ⟨ha, h⟩
  · rename_i u rest ha; rw [takeTurn_eq] at h; exact .inr ⟨u, rest, ha, h⟩

/-- What no access touches (R29, R42). -/
theorem hostAccess_fixed (a : Access) (s : State) :
    (hostAccess a s).outBuf = s.outBuf ∧ (hostAccess a s).cap = s.cap ∧ (hostAccess a s).epoch = s.epoch ∧
    (hostAccess a s).gap = s.gap ∧ (hostAccess a s).agenda = s.agenda := by
  unfold hostAccess
  split
  · cases a with
    | read4 a => simp
    | read1 a => simp only [bufRead]; split <;> (try split) <;> (try split) <;> simp
    | write4 a v =>
      simp only [regWrite, request]
      split
      · split <;> simp
      · split <;> simp
    | write1 a v => simp only [bufWrite]; split <;> simp
  · simp

/-- No event looks at the number of core steps after it: that number may be taken out before the event or after it. -/
theorem hostEvent_gap (e : Event) (s : State) (g : Nat) :
    { hostEvent e { s with gap := g } with gap := 0 } = hostEvent e { s with gap := 0 } := by
  cases e with
  | reset => rfl
  | pause => rfl
  | access a =>
    show { hostAccess a { s with gap := g } with gap := 0 } = hostAccess a { s with gap := 0 }
    unfold hostAccess
    split
    · cases a with
      | read4 a => rfl
      | read1 a => simp only [bufRead, outDefined, outCap, inValue]; split <;> (try split) <;> (try split) <;> rfl
      | write4 a v =>
        simp only [regWrite]
        split
        · unfold request; split <;> rfl
        · split <;> rfl
      | write1 a v => simp only [bufWrite]; split <;> rfl
    · rfl

@[simp] theorem hostEvent_gap_field (e : Event) (s : State) : (hostEvent e s).gap = s.gap := by
  cases e with
  | access a => exact (hostAccess_fixed a s).2.2.2.1
  | reset => rfl
  | pause => rfl

/-- Only a CMD write touches the flags and OUT_LEN (R41). -/
theorem hostAccess_flags {a : Access} (h : ∀ w, a ≠ .write4 cmdOffset w) :
    (hostAccess a s).status = s.status ∧ (hostAccess a s).outLen = s.outLen := by
  unfold hostAccess
  split
  · cases a with
    | read4 a => simp
    | read1 a => simp only [bufRead]; split <;> (try split) <;> (try split) <;> simp
    | write4 a v =>
      have ha : a ≠ cmdOffset := fun e => h v (by rw [e])
      simp only [regWrite, if_neg ha]
      split <;> simp
    | write1 a v => simp only [bufWrite]; split <;> simp
  · simp

/-- While BUSY no access touches the flags, the lengths or IN (R104). -/
theorem hostAccess_busy (a : Access) (hb : s.status.state = .busy) :
    (hostAccess a s).status = s.status ∧ (hostAccess a s).outLen = s.outLen ∧ (hostAccess a s).inBuf = s.inBuf ∧
    (hostAccess a s).inLen = s.inLen := by
  unfold hostAccess
  split
  · cases a with
    | read4 a => simp
    | read1 a => simp only [bufRead]; split <;> (try split) <;> (try split) <;> simp
    | write4 a v =>
      simp only [regWrite, request]
      split <;> simp [hb]
    | write1 a v => simp [bufWrite, hb]
  · simp

/-! ### Every memory operation keeps the canonical form -/

theorem bufWrite_wf (a : Offset) (v : Byte) (h : Memory.wf s.inBuf = true) : Memory.wf (bufWrite a v s).inBuf = true := by
  unfold bufWrite
  simp only
  split
  · exact Memory.wf_write _ _ _ h
  · exact h

theorem emit_wf {v : Byte} {k : State → Result} (h : Memory.wf s.outBuf = true)
    (hk : ∀ u, Memory.wf u.outBuf = true → ∀ t, k u = .next t → Memory.wf t.outBuf = true)
    (he : emit v s k = .next t) : Memory.wf t.outBuf = true :=
  hk _ (Memory.wf_write _ _ _ h) _ (emit_next he).2

theorem reset_wf : Memory.wf State.reset.inBuf = true ∧ Memory.wf State.reset.outBuf = true := ⟨rfl, rfl⟩

theorem resetBlock_wf (s : State) : Memory.wf (resetBlock s).inBuf = true ∧ Memory.wf (resetBlock s).outBuf = true :=
  ⟨rfl, rfl⟩

/-! ### Runs of the machine -/

/-- A run of the machine is its first step and then the rest. -/
theorem core_run_step {k : Nat} (h : step s = .next t) :
    Host.Core.run Sys2Proof.core (k + 1) s = Host.Core.run Sys2Proof.core k t := by
  have hr : ∀ (M : Host.Core) (s t : M.State), M.step s = .next t → M.run (k + 1) s = M.run k t := by
    intro M s t h; simp [Host.Core.run, h]
  exact hr Sys2Proof.core s t h

/-- A known core step at the end of a run. -/
theorem coreRun_snoc {k : Nat} {u : State} (h : coreRun k s = .next t) (h' : coreStep t = .next u) :
    coreRun (k + 1) s = .next u := by
  rw [coreRun_add, h, andThen_next, coreRun_step h', coreRun_zero]

end Sys2Proof.Machine
end

