-- ==== Sys2Proof/Tests/Slice0.lean ====
section
/-! SUPPORT. Tests on small values, each with its source in spec/, and for every statement with hypotheses a witness: a
concrete state and operands that meet them together. -/

namespace Sys2Proof.Tests

open Sys2Proof Sys2Proof.Machine

/-! ### Words (30_encoding.md R80, R81, R83) -/

theorem test_decode_encode_hex : decode 0b0000_0000_0000_0000_0000_0000_0000_0000#32 = .ok .encodeHex := by decide
theorem test_decode_decode_hex : decode 0b0000_0000_0000_0000_0000_0000_0000_0001#32 = .ok .decodeHex := by decide
theorem test_decode_encode_base32 : decode 0b0000_0000_0000_0000_0000_0000_0000_0010#32 = .ok .encodeBase32 := by decide
theorem test_decode_reserved_op : decode 0b0000_0000_0000_0000_0000_0000_0000_0011#32 = .error .reservedOp := by decide
theorem test_decode_reserved_bits : decode 0b0000_0000_0000_0000_0000_0000_0000_0100#32 = .error .reservedBits := by decide
theorem test_decode_high_reserved_bit : decode 0x80000002#32 = .error .reservedBits := by decide
theorem test_table_words : decodeTableWord 32 0 = some .encodeHex ∧ decodeTableWord 32 1 = some .decodeHex ∧
    decodeTableWord 32 2 = some .encodeBase32 ∧ decodeTableWord 32 3 = none ∧ decodeTableWord 40 1 = none := by decide

/-! ### Well-formedness: an ill-formed term for each check (R51, R80, R84, R86) -/

theorem test_wf_word_reserved_op : CmdWord.wf 3#32 = false := by decide
theorem test_wf_word_reserved_bits : CmdWord.wf 4#32 = false := by decide
theorem test_wf_instr : Instr.wf .encodeHex = true ∧ Instr.wf .decodeHex = true ∧ Instr.wf .encodeBase32 = true := by decide
theorem test_wf_value_too_wide : Stmt.wf (.w8in 0 (.num 256)) = false := by decide
theorem test_wf_word_too_wide : Stmt.wf (.w32 .inLen (.num 0x100000000)) = false := by decide
theorem test_wf_in_index : Stmt.wf (.w8in 0x10000 (.num 0)) = false ∧ Stmt.wf (.r8in 0x10000 0) = false := by decide
theorem test_wf_out_index : Stmt.wf (.w8out 0x20000 (.num 0)) = false ∧ Stmt.wf (.r8out 0x20000 0) = false := by decide
theorem test_wf_field_reversed : Stmt.wf (.jeq 0 0 1 (.num 0) 0) = false := by decide
theorem test_wf_field_too_high : Stmt.wf (.jeq 0 32 0 (.num 0) 0) = false := by decide
theorem test_wf_missing_label : HostProgram.wf [.jeq 0 1 0 (.num 1) 5, .label 4] = false := by decide
theorem test_wf_double_label : HostProgram.wf [.label 4, .label 4] = false := by decide
theorem test_wf_wait : HostProgram.wf (runStmts (.op .encodeHex) 0 1 ++ [.stop]) = true := by decide

/-! ### Buffers -/

theorem test_memory_write : Memory.write (Memory.write [] 5 1#8) 2 3#8 = [(2, 3#8), (5, 1#8)] := by decide
theorem test_memory_wf : Memory.wf [(2, 3#8), (5, 1#8)] = true ∧ Memory.wf [(5, 1#8), (2, 3#8)] = false ∧
    Memory.wf [(2, 3#8), (2, 1#8)] = false := by decide

/-! ### Commands: one step each on a small state (95_test_vectors.md) -/

/-- An idle block with IN_CAP = 16 whose input is `bs`. -/
def loaded (bs : List Byte) : State :=
  { State.reset with
    cap := 16#17
    inLen := BitVec.ofNat 17 bs.length
    inBuf := (List.range bs.length).zip bs }

/-- STATUS, OUT_LEN and OUT after the step that runs the command word `w`. -/
def shown (w : Nat) (bs : List Byte) : Option (Word × Nat × List (Option Byte)) :=
  (nextState (step ((loaded bs).withFetchWord 32 w))).map
    (fun t => (statusWord t.status, t.outLen.toNat, (List.range t.outLen.toNat).map (outDefined t)))

/-- S1. -/
theorem test_encode_hex_S1 : shown 0 [0x00#8, 0xFF#8, 0x1A#8] =
    some (0x00000002#32, 6, [some 0x30#8, some 0x30#8, some 0x46#8, some 0x46#8, some 0x31#8, some 0x41#8]) := by decide

/-- D1.4. -/
theorem test_encode_hex_high_nibble_first : shown 0 [0x0F#8] = some (0x00000002#32, 2, [some 0x30#8, some 0x46#8]) := by
  decide

/-- S2 and, of its letters, D2.3's mixed case; the last character is dropped (D2.13). -/
theorem test_decode_hex_case_and_odd : shown 1 [0x61#8, 0x46#8, 0x47#8] = some (0x00010002#32, 1, [some 0xAF#8]) := by
  decide

/-- D2.8. -/
theorem test_decode_hex_low_invalid : shown 1 [0x30#8, 0x47#8] = some (0x00014713#32, 0, []) := by decide

/-- D3.13, which also tells the two readings of conflict C1 apart (symbol 6 is d[1:0] ++ e[7:5]). -/
theorem test_encode_base32_mixed : shown 2 [0x12#8, 0x34#8, 0x56#8, 0x78#8, 0x9A#8] =
    some (0x00020002#32, 8, [some 0x43#8, some 0x49#8, some 0x32#8, some 0x46#8, some 0x4D#8, some 0x36#8, some 0x45#8,
      some 0x32#8]) := by decide

/-- D3.17. -/
theorem test_encode_base32_length : shown 2 [1#8, 2#8, 3#8, 4#8] = some (0x00020523#32, 0, []) := by decide

/-- D4.3: ILLEGAL_OP beats INVALID_LENGTH. -/
theorem test_reserved_word : shown 0x80000002 [1#8, 2#8] = some (0x00020043#32, 0, []) := by decide

/-- D4.16: the first command after reset. -/
theorem test_first_command : (nextState (step (State.reset.withFetchWord 32 2))).map (fun t => statusWord t.status) =
    some 0x00020002#32 := by decide

/-! ### The port (95_test_vectors.md D4) -/

/-- D4.7. -/
theorem test_port_byte_read_of_status :
    (hostAccess (.read1 statusOffset) (loaded [])).response = some .busError := by decide

/-- D4.8. -/
theorem test_port_misaligned : (hostAccess (.read4 0x00006#18) (loaded [])).response = some .busError := by decide

/-- D4.12 and D4.11. -/
theorem test_port_tail_and_reserved :
    (hostAccess (.read1 (inOffset 16)) (loaded [])).response = some (.data8 0#8) ∧
    (hostAccess (.read4 0x00020#18) (loaded [])).response = some (.data32 0#32) := by decide

/-- D4.13. -/
theorem test_port_in_len_is_cut : (hostAccess (.write4 inLenOffset 0xFFFFFFFF#32) (loaded [])).inLen = 0x1FFFF#17 := by
  decide

/-- R88's examples. -/
theorem test_transaction_text :
    transactionText (transactionOf (.write4 cmdOffset 2#32) .ok) =
      ['W', '4', '@', '0', '0', '0', '0', '0', '=', '0', '0', '0', '0', '0', '0', '0', '2'] ∧
    transactionText (transactionOf (.write1 (inOffset 3) 0x6C#8) .ok) =
      ['W', '1', '@', '1', '0', '0', '0', '3', '=', '6', 'C'] := by decide

/-- R88's `W32 CMD, ENCODE_BASE32` is that access. -/
theorem test_statement_access : stmtAccess [] (.w32 .cmd (.op .encodeBase32)) = some (.write4 0x00000#18 2#32) := by decide

/-- A host about to run statement `k` of `p` on `s`. -/
def hostAt (s : State) (p : List Stmt) (k : Nat) : HostMachine :=
  { block := s, prog := p, pc := k, vars := [], ended := false, faults := [] }

/-- The place, the variable 7 and the recorded faults after one statement of a host. -/
def hostShown (h : HostMachine) : Option (Nat × Word × List HostFault) :=
  match hostStep 0 h with
  | .next k => some (k.pc, getVar k.vars 7, k.faults)
  | .fault _ => none
  | .refused _ => none

/-- Program P3's byte read of STATUS: BUS_ERROR with data 0, recorded, and the program goes on. -/
theorem test_program_records_bus_error : hostShown (hostAt (loaded []) [.stop, .r8reg .status 7] 1) =
    some (2, 0#32, [{ pc := 1, access := .read1 0x00004#18 }]) := by decide

/-- R86 and log 14: no variable equals a number of 2^32, whose low 32 bits are 0. -/
theorem test_program_jump_compares_numbers :
    hostShown (hostAt (loaded []) [.jeq 7 31 0 (.num 0x100000000) 3, .stop, .label 3] 0) = some (1, 0#32, []) ∧
    hostShown (hostAt (loaded []) [.jeq 7 31 0 (.num 0) 3, .stop, .label 3] 0) = some (2, 0#32, []) := by decide

/-- Log 14: the first place of a label given twice. -/
theorem test_program_first_label : labelPlace 4 [.stop, .label 4, .label 4] 0 = some 1 := by decide

/-! ### States for the witnesses -/

/-- Five hex digits as input. -/
def idle5 : State := { loaded [0x31#8, 0x61#8, 0x46#8, 0x39#8, 0x30#8] with gap := 100 }

/-- `s` after accepting `w` and `k` core steps. -/
def ran (s : State) (w : Word) (k : Nat) : State := (nextState (coreRun k (accept w s))).getD s

/-- RunInv as a computation. -/
def runOk (s : State) : Bool :=
  decide (s.ill = false ∧ s.n ≤ s.cap ∧ OutputStored s s.outPtr.toNat) && decide (s.curOp = 0#2 → HexEncoderInv s) &&
  decide (s.curOp = 1#2 → HexDecoderInv s) && decide (s.curOp = 2#2 → Base32EncoderInv s)

/-- BusyInv as a computation. -/
def busyOk (s : State) : Bool :=
  decide (s.curOp = s.status.op ∧ s.n = s.inLen ∧ (s.curOp = 3#2 → s.ill = true)) &&
  decide (s.phase = .check → s.idx = 0#17 ∧ s.outPtr = 0#18) && (s.phase != .run || runOk s)

/-- Inv as a computation. -/
def invOk (s : State) : Bool :=
  decide (CapInv s) && decide (BufferInv s) && decide (FlagInv s) && (s.status.state != .busy || busyOk s)

theorem inv_of_ok {s : State} (h : invOk s = true) : Inv s := by
  simp only [invOk, busyOk, runOk, Bool.and_eq_true, Bool.or_eq_true, bne_iff_ne, ne_eq, decide_eq_true_eq] at h
  obtain ⟨⟨⟨h1, h2⟩, h3⟩, h4⟩ := h
  refine ⟨h1, h2, h3, fun hb => ?_⟩
  obtain ⟨⟨⟨g1, g2, g3⟩, g4⟩, g5⟩ := h4.resolve_left (fun hn => hn hb)
  refine ⟨g1, g2, g3, g4, fun hp => ?_⟩
  obtain ⟨⟨⟨⟨r1, r2, r3⟩, r4⟩, r5⟩, r6⟩ := g5.resolve_left (fun hn => hn hp)
  exact ⟨r1, r2, r3, r4, r5, r6⟩

theorem inv_idle5 : Inv idle5 := inv_of_ok (by decide)

/-- BUSY, BUSY in RUN, DONE and ERROR states that a run reaches. -/
def busyCheck : State := accept 0#32 idle5
def busyRun : State := ran idle5 0#32 3
def done0 : State := ran idle5 0#32 20
def failed : State := ran (loaded [0x47#8, 0x30#8]) 1#32 20

theorem inv_busyCheck : Inv busyCheck := inv_of_ok (by decide)
theorem inv_busyRun : Inv busyRun := inv_of_ok (by decide)
theorem inv_done0 : Inv done0 := inv_of_ok (by decide)
theorem inv_failed : Inv failed := inv_of_ok (by decide)
theorem test_states : busyCheck.status.state = .busy ∧ busyRun.status.state = .busy ∧ busyRun.phase = .run ∧
    done0.status.state = .done ∧ failed.status.state = .error := by decide

/-! ### Witnesses -/

theorem witness_OnlyThreeWordsNameAnOperation : 3#32 ≠ 0x00000000#32 ∧ 3#32 ≠ 0x00000001#32 ∧ 3#32 ≠ 0x00000002#32 := by
  decide

theorem witness_DecodeAndEncodeAgree : decode 1#32 = .ok .decodeHex := by decide

/-- Each way to be wrong, at the edges of the regions; and a response BUS_ERROR. -/
theorem witness_WrongWidthIsBusError :
    ((accessAddr (.read1 0x0FFFF#18)).toNat ≤ 0x0FFFF ∧ accessWidth (.read1 0x0FFFF#18) ≠ 4) ∧
    ((accessAddr (.read4 0x0FFFE#18)).toNat ≤ 0x0FFFF ∧ (accessAddr (.read4 0x0FFFE#18)).toNat % 4 ≠ 0) ∧
    (0x10000 ≤ (accessAddr (.write4 0x10000#18 0#32)).toNat ∧ accessWidth (.write4 0x10000#18 0#32) ≠ 1) ∧
    (0x10000 ≤ (accessAddr (.read4 0x3FFFC#18)).toNat ∧ accessWidth (.read4 0x3FFFC#18) ≠ 1) ∧
    (hostAccess (.write4 0x10000#18 0#32) idle5).response = some .busError := by decide

/-- Every state, and every error code with the state that goes with it. -/
theorem witness_StatusWordLayout :
    idle5.status.state = .idle ∧ busyRun.status.state = .busy ∧ done0.status.state = .done ∧ failed.status.state = .error ∧
    idle5.status.errCode = .none ∧ failed.status.errCode = .invalidCharacter ∧
    (ran (loaded [1#8]) 2#32 20).status.errCode = .invalidLength ∧
    (ran { idle5 with inLen := 17#17 } 0#32 1).status.errCode = .capacityExceeded ∧
    (ran idle5 3#32 1).status.errCode = .illegalOp := by decide

/-- The first and the last aligned offset of each clause, BUSY and not. -/
theorem witness_RegisterRegionAccess :
    ((0x00000#18).toNat ≤ 0x0FFFF ∧ (0x00000#18).toNat % 4 = 0) ∧
    ((0x00010#18).toNat ≤ 0x0FFFF ∧ (0x00010#18).toNat % 4 = 0) ∧
    (0x00014 ≤ (0x00014#18).toNat ∧ (0x00014#18).toNat ≤ 0x0FFFF ∧ (0x00014#18).toNat % 4 = 0) ∧
    (0x00014 ≤ (0x0FFFC#18).toNat ∧ (0x0FFFC#18).toNat ≤ 0x0FFFF ∧ (0x0FFFC#18).toNat % 4 = 0) ∧
    idle5.status.state ≠ .busy ∧ busyCheck.status.state = .busy := by decide

/-- The last written byte, the first unwritten one, the last byte of IN, and the first and last of the tail. -/
theorem witness_InputBufferAccess :
    ((inOffset 4).toNat = 0x10000 + 4 ∧ 4 < idle5.cap.toNat ∧ Memory.read idle5.inBuf 4 = some 0x30#8) ∧
    ((inOffset 5).toNat = 0x10000 + 5 ∧ 5 < idle5.cap.toNat ∧ Memory.read idle5.inBuf 5 = none) ∧
    ((inOffset 15).toNat = 0x10000 + 15 ∧ 15 < idle5.cap.toNat ∧ idle5.status.state ≠ .busy) ∧
    ((inOffset 16).toNat = 0x10000 + 16 ∧ 16 < 0x10000 ∧ idle5.cap.toNat ≤ 16) ∧
    ((0x1FFFF#18).toNat = 0x10000 + 0xFFFF ∧ 0xFFFF < 0x10000 ∧ idle5.cap.toNat ≤ 0xFFFF) ∧
    busyCheck.status.state = .busy := by decide

/-- The last result byte, the first byte after it, the first byte of a running command, and the edges of the tail. -/
theorem witness_OutputBufferAccess :
    ((outOffset 9).toNat = 0x20000 + 9 ∧ 9 < outCap done0 ∧ done0.status.state = .done ∧ 9 < done0.outLen.toNat ∧
      OutputStored done0 done0.outLen.toNat) ∧
    ((outOffset 10).toNat = 0x20000 + 10 ∧ 10 < outCap done0 ∧ done0.outLen.toNat ≤ 10) ∧
    ((outOffset 31).toNat = 0x20000 + 31 ∧ 31 < outCap busyRun ∧ busyRun.status.state ≠ .done) ∧
    ((outOffset 32).toNat = 0x20000 + 32 ∧ outCap done0 ≤ 32) ∧
    ((0x3FFFF#18).toNat = 0x20000 + 0x1FFFF ∧ 0x1FFFF < 0x20000 ∧ outCap done0 ≤ 0x1FFFF) := by decide

theorem witness_ReadsRepeatAndBufferWritesAreIdempotent :
    (hostAccess (.read1 (outOffset 9)) done0).draws = done0.draws ∧
    (hostAccess (.read1 (outOffset 10)) done0).draws ≠ done0.draws := by decide

theorem witness_WritesWhileBusyLeaveNoTrace : busyRun.status.state = .busy ∧ 0x10000 ≤ (0x10000#18).toNat ∧
    ((0x0FFFC#18).toNat ≤ 0x0FFFF ∧ (0x0FFFC#18).toNat % 4 = 0) := by decide

theorem witness_CommandRequestIsAcceptedUnlessBusy : busyRun.status.state = .busy ∧ failed.status.state ≠ .busy := by decide

theorem witness_InLenKeepsSeventeenBits : done0.status.state ≠ .busy := by decide

/-- A turn and a reset state whose next event is a command. -/
theorem witness_StepRunsTheDecodedCommand :
    { idle5 with agenda := [⟨.access (.write4 0x00000#18 2#32), 3⟩] }.agenda =
      { event := .access (.write4 0x00000#18 2#32), gap := 3 } :: [] ∧
    decode 2#32 = .ok .encodeBase32 ∧ decode (BitVec.ofNat 32 (1 % 2 ^ 32)) = .ok .decodeHex := ⟨rfl, rfl, rfl⟩

/-- A reset; a reserved word on a BUSY block, and on an idle one with no core step after it; no event to come. -/
theorem witness_StepTakesTheNextEventThenTheCore :
    { idle5 with agenda := [⟨.reset, 3⟩] }.agenda = { event := .reset, gap := 3 } :: [] ∧
    { busyRun with agenda := [⟨.access (.write4 0x00000#18 3#32), 1⟩] }.agenda =
      { event := .access (.write4 0x00000#18 3#32), gap := 1 } :: [] ∧
    { idle5 with agenda := [⟨.access (.write4 0x00000#18 3#32), 0⟩] }.agenda =
      { event := .access (.write4 0x00000#18 3#32), gap := 0 } :: [] ∧
    busyRun.status.state = .busy ∧ busyRun.agenda = [] ∧ idle5.status.state ≠ .busy :=
  ⟨rfl, rfl, rfl, by decide, by decide, by decide⟩

/-- The two kinds of reserved word. -/
theorem witness_ReservedWordEndsInIllegalOp :
    { idle5 with agenda := [⟨.access (.write4 0x00000#18 3#32), 1⟩] }.agenda =
      { event := .access (.write4 0x00000#18 3#32), gap := 1 } :: [] ∧
    idle5.status.state ≠ .busy ∧ (3#32).extractLsb' 0 2 = 3#2 ∧ (4#32).extractLsb' 2 30 ≠ 0#30 :=
  ⟨rfl, by decide, by decide, by decide⟩

/-- A reserved word, a length one above IN_CAP, a length that fits, and the three units. -/
theorem witness_CoreStepFollowsItsPhase :
    ((accept 3#32 idle5).status.state = .busy ∧ (accept 3#32 idle5).phase = .check ∧ (accept 3#32 idle5).ill = true) ∧
    ((accept 0#32 { idle5 with inLen := 17#17 }).ill = false ∧
      (accept 0#32 { idle5 with inLen := 17#17 }).cap < (accept 0#32 { idle5 with inLen := 17#17 }).n) ∧
    (busyCheck.phase = .check ∧ busyCheck.ill = false ∧ busyCheck.n ≤ busyCheck.cap) ∧
    (busyRun.phase = .run ∧ busyRun.curOp = 0#2) ∧
    ((ran idle5 1#32 1).phase = .run ∧ (ran idle5 1#32 1).curOp = 1#2) ∧
    ((ran idle5 2#32 1).phase = .run ∧ (ran idle5 2#32 1).curOp = 2#2) := by decide

/-- The last byte, and the end. -/
theorem witness_HexEncoderStepRule :
    (∃ s, Inv s ∧ s.status.state = .busy ∧ s.phase = .run ∧ s.curOp = 0#2 ∧ s.idx < s.n ∧
      Memory.read s.inBuf s.idx.toNat = some 0x30#8) ∧
    (∃ s, Inv s ∧ s.status.state = .busy ∧ s.phase = .run ∧ s.curOp = 0#2 ∧ s.idx = s.n) :=
  ⟨⟨ran idle5 0#32 5, inv_of_ok (by decide), by decide⟩, ⟨ran idle5 0#32 6, inv_of_ok (by decide), by decide⟩⟩

/-- An invalid character, a high one, a low one, and the end, where the fifth character is left over. -/
theorem witness_HexDecoderStepRule :
    (∃ s, Inv s ∧ s.status.state = .busy ∧ s.phase = .run ∧ s.curOp = 1#2 ∧ s.idx.toNat < 2 * (s.n.toNat / 2) ∧
      Memory.read s.inBuf s.idx.toNat = some 0x47#8 ∧ decLut 0x47#8 = none) ∧
    (∃ s, Inv s ∧ s.status.state = .busy ∧ s.phase = .run ∧ s.curOp = 1#2 ∧ s.idx.toNat < 2 * (s.n.toNat / 2) ∧
      Memory.read s.inBuf s.idx.toNat = some 0x31#8 ∧ decLut 0x31#8 = some 1#4 ∧ s.half = false) ∧
    (∃ s, Inv s ∧ s.status.state = .busy ∧ s.phase = .run ∧ s.curOp = 1#2 ∧ s.idx.toNat < 2 * (s.n.toNat / 2) ∧
      Memory.read s.inBuf s.idx.toNat = some 0x39#8 ∧ decLut 0x39#8 = some 9#4 ∧ s.half = true) ∧
    (∃ s, Inv s ∧ s.status.state = .busy ∧ s.phase = .run ∧ s.curOp = 1#2 ∧ s.idx.toNat = 2 * (s.n.toNat / 2)) :=
  ⟨⟨ran (loaded [0x47#8, 0x30#8]) 1#32 1, inv_of_ok (by decide), by decide⟩,
   ⟨ran idle5 1#32 1, inv_of_ok (by decide), by decide⟩, ⟨ran idle5 1#32 4, inv_of_ok (by decide), by decide⟩,
   ⟨ran idle5 1#32 5, inv_of_ok (by decide), by decide⟩⟩

/-- A bad length, the last load, the seventh and the eighth symbol, and the end. -/
theorem witness_Base32EncoderStepRule :
    (∃ s, Inv s ∧ s.status.state = .busy ∧ s.phase = .run ∧ s.curOp = 2#2 ∧ s.n.toNat % 5 ≠ 0) ∧
    (∃ s, Inv s ∧ s.status.state = .busy ∧ s.phase = .run ∧ s.curOp = 2#2 ∧ s.n.toNat % 5 = 0 ∧ s.loads = 4#3 ∧
      s.loads < 5#3 ∧ s.idx < s.n ∧ Memory.read s.inBuf s.idx.toNat = some 0x30#8) ∧
    (∃ s, Inv s ∧ s.status.state = .busy ∧ s.phase = .run ∧ s.curOp = 2#2 ∧ s.n.toNat % 5 = 0 ∧ s.loads = 5#3 ∧
      s.syms = 6#4 ∧ s.syms < 7#4) ∧
    (∃ s, Inv s ∧ s.status.state = .busy ∧ s.phase = .run ∧ s.curOp = 2#2 ∧ s.n.toNat % 5 = 0 ∧ s.loads = 5#3 ∧
      s.syms = 7#4) ∧
    (∃ s, Inv s ∧ s.status.state = .busy ∧ s.phase = .run ∧ s.curOp = 2#2 ∧ s.n.toNat % 5 = 0 ∧ s.loads < 5#3 ∧
      s.idx = s.n) :=
  ⟨⟨ran (loaded [1#8, 2#8]) 2#32 1, inv_of_ok (by decide), by decide⟩,
   ⟨ran idle5 2#32 5, inv_of_ok (by decide), by decide⟩, ⟨ran idle5 2#32 12, inv_of_ok (by decide), by decide⟩,
   ⟨ran idle5 2#32 13, inv_of_ok (by decide), by decide⟩, ⟨ran idle5 2#32 14, inv_of_ok (by decide), by decide⟩⟩

theorem witness_HexEncoderStepEquivalence :
    (ran idle5 0#32 1).status.state = .busy ∧ (ran idle5 0#32 1).phase = .run ∧ (ran idle5 0#32 1).curOp = 0#2 ∧
    (ran idle5 0#32 1).idx = 0#17 ∧ (ran idle5 0#32 1).outPtr = 0#18 ∧ (ran idle5 0#32 1).n ≤ (ran idle5 0#32 1).cap ∧
    5 ≤ (ran idle5 0#32 1).n.toNat ∧ InputWritten (ran idle5 0#32 1) 5 := by decide

theorem witness_HexDecoderStepEquivalence :
    (ran idle5 1#32 1).status.state = .busy ∧ (ran idle5 1#32 1).phase = .run ∧ (ran idle5 1#32 1).curOp = 1#2 ∧
    (ran idle5 1#32 1).idx = 0#17 ∧ (ran idle5 1#32 1).outPtr = 0#18 ∧ (ran idle5 1#32 1).half = false ∧
    (ran idle5 1#32 1).n ≤ (ran idle5 1#32 1).cap ∧ 4 % 2 = 0 ∧ 4 ≤ (ran idle5 1#32 1).n.toNat ∧
    InputWritten (ran idle5 1#32 1) 4 ∧ ∀ i < 4, (decLut (inValue (ran idle5 1#32 1) i)).isSome = true := by decide

theorem witness_Base32EncoderStepEquivalence :
    (ran idle5 2#32 1).status.state = .busy ∧ (ran idle5 2#32 1).phase = .run ∧ (ran idle5 2#32 1).curOp = 2#2 ∧
    (ran idle5 2#32 1).idx = 0#17 ∧ (ran idle5 2#32 1).outPtr = 0#18 ∧ (ran idle5 2#32 1).loads = 0#3 ∧
    (ran idle5 2#32 1).syms = 0#4 ∧ (ran idle5 2#32 1).n ≤ (ran idle5 2#32 1).cap ∧ (ran idle5 2#32 1).n.toNat % 5 = 0 ∧
    1 ≤ (ran idle5 2#32 1).n.toNat / 5 ∧ InputWritten (ran idle5 2#32 1) (5 * 1) := by decide

/-- A result, an error of the operation, and a length that does not fit. -/
theorem witness_CommandReachesItsFunctionalOutcome :
    (idle5.status.state ≠ .busy ∧ (idle5.inLen ≤ idle5.cap → InputWritten idle5 idle5.inLen.toNat)) ∧
    (∃ seq, execute idle5.cap 0#32 idle5.inLen (inputBytes idle5 idle5.inLen.toNat) = .done seq) ∧
    execute 16#17 2#32 2#17 (inputBytes (loaded [1#8, 2#8]) 2) = .error .invalidLength 5#8 ∧
    execute 16#17 1#32 17#17 (inputBytes idle5 17) = .error .capacityExceeded 0#8 :=
  ⟨by decide, ⟨_, rfl⟩, by decide, by decide⟩

theorem witness_EncodeHexResult : idle5.status.state ≠ .busy ∧ idle5.inLen ≤ idle5.cap ∧
    InputWritten idle5 idle5.inLen.toNat ∧ idle5.inLen.toNat + 2 ≤ idle5.gap := by decide

theorem witness_DecodeHexResult : idle5.status.state ≠ .busy ∧ idle5.inLen ≤ idle5.cap ∧
    InputWritten idle5 (2 * (idle5.inLen.toNat / 2)) ∧
    (∀ i < 2 * (idle5.inLen.toNat / 2), (decLut (inValue idle5 i)).isSome = true) ∧
    idle5.inLen.toNat + 2 ≤ idle5.gap := by decide

/-- `0G`: the low character of the pair is invalid. -/
def badPair : State := { loaded [0x30#8, 0x47#8] with gap := 3 }

theorem witness_DecodeHexInvalidCharacter : badPair.status.state ≠ .busy ∧ badPair.inLen ≤ badPair.cap ∧
    1 < 2 * (badPair.inLen.toNat / 2) ∧ InputWritten badPair (1 + 1) ∧
    (∀ k < 1, (decLut (inValue badPair k)).isSome = true) ∧ decLut (inValue badPair 1) = none ∧ 1 + 2 ≤ badPair.gap := by
  decide

theorem witness_EncodeBase32Result : idle5.status.state ≠ .busy ∧ idle5.inLen ≤ idle5.cap ∧ idle5.inLen.toNat % 5 = 0 ∧
    InputWritten idle5 idle5.inLen.toNat ∧ 13 * (idle5.inLen.toNat / 5) + 2 ≤ idle5.gap := by decide

theorem witness_EncodeBase32InvalidLength : badPair.status.state ≠ .busy ∧ badPair.inLen ≤ badPair.cap ∧
    badPair.inLen.toNat % 5 ≠ 0 ∧ 2 ≤ badPair.gap := by decide

theorem witness_CapacityExceededByEveryCommand :
    { idle5 with inLen := 17#17 }.status.state ≠ .busy ∧ { idle5 with inLen := 17#17 }.cap < 17#17 ∧
    1 ≤ { idle5 with inLen := 17#17 }.gap := by decide

theorem witness_CommandWhileBusyIsIgnored : busyRun.status.state = .busy := by decide

/-- Each command answers a next state from `idle5`, from a BUSY state, and with no core step at all. -/
theorem witness_CommandFrame : (∃ t, exec .encodeHex idle5 = .next t ∧ t.status.state = .done) ∧
    (∃ t, exec .decodeHex badPair = .next t ∧ t.status.state = .error) ∧
    (∃ t, exec .encodeBase32 { idle5 with gap := 0 } = .next t ∧ t.status.state = .busy) ∧
    (∃ t, exec .decodeHex { busyRun with gap := 1 } = .next t ∧ t.status.state = .busy) ∧
    (∃ t, exec .decodeHex { busyRun with gap := 9 } = .next t ∧ t.status.state = .done) ∧
    (∃ t, exec .decodeHex { ran badPair 1#32 1 with gap := 9 } = .next t ∧ t.status.state = .error) ∧
    busyRun.status.state = .busy ∧ busyRun.outLen = 0#18 :=
  ⟨⟨_, rfl, by decide⟩, ⟨_, rfl, by decide⟩, ⟨_, rfl, by decide⟩, ⟨_, rfl, by decide⟩,
    ⟨_, rfl, by decide⟩, ⟨_, rfl, by decide⟩, by decide, by decide⟩

theorem witness_CommandNeverStopsOnWrittenInput : Inv idle5 ∧ idle5.status.state ≠ .busy ∧
    (idle5.inLen ≤ idle5.cap → InputWritten idle5 idle5.inLen.toNat) ∧ { idle5 with gap := 0 }.gap = 0 :=
  ⟨inv_idle5, by decide⟩

/-- One byte more than the host has written, and the command's turn next. -/
def hole : State :=
  { loaded [0x31#8, 0x61#8, 0x46#8, 0x39#8] with
    inLen := 5#17
    gap := 100
    agenda := [⟨.access (.write4 0x00000#18 0#32), 100⟩] }

theorem witness_StepStopsOnlyOnUnwrittenInput : Inv hole ∧ step hole = .fault (.unwrittenInput 4) :=
  ⟨inv_of_ok (by decide), rfl⟩

/-- For ENCODE_HEX and ENCODE_BASE32 the last byte of IN; for DECODE_HEX the last of a consumed pair. -/
theorem witness_UnwrittenInputStopsTheCommand :
    (hole.status.state ≠ .busy ∧ hole.inLen ≤ hole.cap ∧ 4 < hole.inLen.toNat ∧ InputWritten hole 4 ∧
      Memory.read hole.inBuf 4 = none ∧ 4 + 2 ≤ hole.gap ∧ hole.inLen.toNat % 5 = 0 ∧
      13 * (4 / 5) + 4 % 5 + 2 ≤ hole.gap) ∧
    ({ hole with inLen := 6#17 }.inLen ≤ hole.cap ∧ 4 < 2 * ({ hole with inLen := 6#17 }.inLen.toNat / 2) ∧
      ∀ k < 4, (decLut (inValue { hole with inLen := 6#17 } k)).isSome = true) := by decide

/-- Both bounds, each met with equality. -/
theorem witness_CommandEndsWithinItsBound : idle5.status.state ≠ .busy ∧
    (idle5.inLen ≤ idle5.cap → InputWritten idle5 idle5.inLen.toNat) ∧
    (if (2#32).extractLsb' 0 2 = 2#2 then 13 * (idle5.inLen.toNat / 5) + 2 else idle5.inLen.toNat + 2) ≤ 15 ∧
    (if (0#32).extractLsb' 0 2 = 2#2 then 13 * (idle5.inLen.toNat / 5) + 2 else idle5.inLen.toNat + 2) ≤ 7 := by decide

theorem witness_LeftAloneTheCoreEndsTheCommand : Inv busyRun ∧ busyRun.agenda = [] ∧ busyRun.status.state = .busy ∧
    (busyRun.n ≤ busyRun.cap → InputWritten busyRun busyRun.n.toNat) := ⟨inv_busyRun, by decide⟩

theorem witness_StepKeepsTheInvariant : Inv busyRun ∧ ∃ t, step busyRun = .next t := ⟨inv_busyRun, _, rfl⟩

/-- Two blocks with other OUT bytes, other old registers and another byte beyond IN_LEN; and a pair that stops. -/
theorem witness_ResultDependsOnlyOnTheInput :
    (idle5.cap = { done0 with inBuf := Memory.write done0.inBuf 5 0x7A#8 }.cap ∧
      idle5.inLen = { done0 with inBuf := Memory.write done0.inBuf 5 0x7A#8 }.inLen ∧
      (∀ i < idle5.inLen.toNat, Memory.read idle5.inBuf i = Memory.read (Memory.write done0.inBuf 5 0x7A#8) i)) ∧
    (∃ t, coreRun 20 (accept 0#32 idle5) = .next t) ∧ coreRun 20 (accept 0#32 hole) = .fault (.unwrittenInput 4) :=
  ⟨by decide, ⟨_, rfl⟩, rfl⟩

theorem witness_InputAndOutputAreSeparate : ∃ t, coreStep busyRun = .next t := ⟨_, rfl⟩

/-- A BUSY state whose next event is a write to IN. -/
theorem witness_InputIsFrozenWhileBusy :
    { busyRun with agenda := [⟨.access (.write1 (inOffset 0) 0x7A#8), 1⟩] }.status.state = .busy ∧
    (∃ t, step { busyRun with agenda := [⟨.access (.write1 (inOffset 0) 0x7A#8), 1⟩] } = .next t) ∧
    ∀ u ∈ { busyRun with agenda := [⟨.access (.write1 (inOffset 0) 0x7A#8), 1⟩] }.agenda.head?, u.event ≠ .reset :=
  ⟨by decide, ⟨_, rfl⟩, by intro u hu; cases hu; simp⟩

/-- All four writers: reset, acceptance, completion, error. -/
theorem witness_FlagsHaveFourWriters :
    (hostEvent .reset done0).status ≠ done0.status ∧
    (hostEvent (.access (.write4 0x00000#18 0#32)) idle5).status ≠ idle5.status ∧
    (∃ t, coreStep (ran idle5 0#32 6) = .next t ∧ t.status ≠ (ran idle5 0#32 6).status) ∧
    ∃ t, coreStep (ran badPair 1#32 2) = .next t ∧ t.status ≠ (ran badPair 1#32 2).status :=
  ⟨by decide, by decide, ⟨_, rfl, by decide⟩, ⟨_, rfl, by decide⟩⟩

/-- An ERROR state with a read to come; no event to come at all is the other case. -/
theorem witness_ErrorIsLeftOnlyByCommandOrReset :
    failed.status.state = .error ∧
    (∃ t, step { failed with agenda := [⟨.access (.read4 statusOffset), 2⟩] } = .next t) ∧
    ∀ u ∈ { failed with agenda := [⟨.access (.read4 statusOffset), 2⟩] }.agenda.head?,
      u.event ≠ .reset ∧ ∀ w, u.event ≠ .access (.write4 0x00000#18 w) :=
  ⟨by decide, ⟨_, rfl⟩, by intro u hu; cases hu; simp⟩

theorem witness_ResultStaysUntilTheNextCommand :
    (done0.status.state = .done ∨ done0.status.state = .error) ∧
    (∃ t, step { done0 with agenda := [⟨.access (.write4 inLenOffset 1#32), 2⟩] } = .next t) ∧
    ∀ u ∈ { done0 with agenda := [⟨.access (.write4 inLenOffset 1#32), 2⟩] }.agenda.head?,
      u.event ≠ .reset ∧ ∀ w, u.event ≠ .access (.write4 0x00000#18 w) :=
  ⟨by decide, ⟨_, rfl⟩, by intro u hu; cases hu; simp [inLenOffset]⟩

theorem witness_OnlyResetLeadsToIdle :
    ∃ t, step { done0 with agenda := [⟨.reset, 2⟩] } = .next t ∧ t.status.state = .idle ∧ done0.status.state ≠ .idle :=
  ⟨_, rfl, by decide⟩

theorem witness_CapIsConstant : ∃ t, step { done0 with agenda := [⟨.reset, 2⟩] } = .next t := ⟨_, rfl⟩

theorem witness_ResetAbandonsTheCommand : busyRun.status.state = .busy ∧
    { busyRun with agenda := [⟨.reset, 4⟩] }.agenda = { event := .reset, gap := 4 } :: [] := ⟨by decide, rfl⟩

/-- Both ends of each range of DEC_LUT, and its neighbours. -/
theorem witness_LookUpTables :
    (0x30#8 ≤ 0x30#8 ∧ 0x39#8 ≤ 0x39#8 ∧ decLut 0x30#8 = some 0#4 ∧ decLut 0x39#8 = some 9#4) ∧
    (decLut 0x41#8 = some 10#4 ∧ decLut 0x46#8 = some 15#4 ∧ decLut 0x61#8 = some 10#4 ∧ decLut 0x66#8 = some 15#4) ∧
    (decLut 0x2F#8 = none ∧ decLut 0x3A#8 = none ∧ decLut 0x40#8 = none ∧ decLut 0x47#8 = none ∧ decLut 0x60#8 = none ∧
      decLut 0x67#8 = none) := by decide

theorem witness_HexEncodeLengthAndAlphabet : 0x41#8 ∈ hexEncode [0x1A#8] := by decide

theorem witness_HexEncodeByIndex : [0x00#8, 0x1A#8][1]? = some 0x1A#8 := by decide

theorem witness_OddTextDropsItsLastCharacter : [0x31#8, 0x32#8].length % 2 = 0 := by decide

/-- An invalid byte at the last consumed index, and a text without one. -/
theorem witness_LowestInvalidByteIsReported :
    (1 < 2 * ([0x30#8, 0x47#8, 0x5A#8].length / 2) ∧ [0x30#8, 0x47#8, 0x5A#8][1]? = some 0x47#8 ∧ decLut 0x47#8 = none ∧
      ∀ (k : Nat) (d : Byte), k < 1 → [0x30#8, 0x47#8, 0x5A#8][k]? = some d → (decLut d).isSome = true) ∧
    ∀ (k : Nat) (d : Byte), k < 2 * ([0x30#8, 0x39#8, 0x5A#8].length / 2) → [0x30#8, 0x39#8, 0x5A#8][k]? = some d →
      (decLut d).isSome = true := by
  refine ⟨⟨by decide, by decide, by decide, ?_⟩, ?_⟩
  · intro k d hk hd
    obtain rfl : k = 0 := by omega
    cases hd; decide
  · intro k d hk hd
    have hk : k < 2 := hk
    interval_cases k <;> (cases hd; decide)

/-- One letter in the other case and one byte that stays; a result and an error. -/
theorem witness_HexDecodeIgnoresCase :
    List.Forall₂ (fun a b : Byte => a = b ∨
      (((0x41#8 ≤ a ∧ a ≤ 0x5A#8) ∨ (0x61#8 ≤ a ∧ a ≤ 0x7A#8)) ∧ b = a ^^^ 0x20#8)) [0x41#8, 0x39#8] [0x61#8, 0x39#8] ∧
    hexDecode [0x41#8, 0x39#8] = .done [0xA9#8] ∧
    List.Forall₂ (fun a b : Byte => a = b ∨
      (((0x41#8 ≤ a ∧ a ≤ 0x5A#8) ∨ (0x61#8 ≤ a ∧ a ≤ 0x7A#8)) ∧ b = a ^^^ 0x20#8)) [0x47#8, 0x39#8] [0x67#8, 0x39#8] ∧
    hexDecode [0x47#8, 0x39#8] = .error .invalidCharacter 0x47#8 :=
  ⟨.cons (by decide) (.cons (by decide) .nil), by decide, .cons (by decide) (.cons (by decide) .nil), by decide⟩

theorem witness_HexRoundTrip : hexEncode [0x1A#8] = hexEncode [0x1A#8] := rfl

theorem witness_EncodeAfterDecodeIsUpperCase : [0x61#8, 0x39#8].length % 2 = 0 ∧
    ∀ c ∈ [0x61#8, 0x39#8], (decLut c).isSome = true := by decide

theorem witness_Base32LengthAndAlphabet : [0#8, 0#8, 0#8, 0#8, 0#8].length % 5 = 0 ∧ [0#8].length % 5 ≠ 0 := by decide

/-- A read, with its variable, a write without one, an access answered BUS_ERROR, and the last index of each buffer region. -/
theorem witness_HostStatementIsItsAccess :
    ((hostAt busyRun [.r32 .status 7] 0).ended = false ∧
      (hostAt busyRun [.r32 .status 7] 0).prog[0]? = some (.r32 .status 7) ∧
      stmtAccess [] (.r32 .status 7) = some (.read4 statusOffset) ∧ stmtTarget (.r32 .status 7) = some 7 ∧
      ∃ b r, step { busyRun with agenda := { event := .access (.read4 statusOffset), gap := 1 } :: busyRun.agenda } = .next b ∧
        b.response = some r) ∧
    stmtTarget (.w32 .cmd (.op .encodeHex)) = none ∧
    (stmtAccess [] (.r8reg .status 7) = some (.read1 statusOffset) ∧
      ∃ b, step { busyRun with agenda := { event := .access (.read1 statusOffset), gap := 1 } :: busyRun.agenda } = .next b ∧
        b.response = some .busError) ∧
    0xFFFF < 0x10000 ∧ 0x1FFFF < 0x20000 ∧ 0xFFFFFFFF < 2 ^ 32 :=
  ⟨⟨rfl, rfl, rfl, rfl, _, _, rfl, rfl⟩, rfl, ⟨rfl, _, rfl, rfl⟩, by decide, by decide, by decide⟩

/-- WAIT in the middle of a program, on a BUSY block and on one that is done. -/
theorem witness_WaitLoopsWhileBusy :
    ((hostAt busyRun ([.stop] ++ waitStmts 3 7 ++ [.stop]) 1).ended = false ∧
      (hostAt busyRun ([.stop] ++ waitStmts 3 7 ++ [.stop]) 1).prog = [.stop] ++ waitStmts 3 7 ++ [.stop] ∧
      (hostAt busyRun ([.stop] ++ waitStmts 3 7 ++ [.stop]) 1).pc = [Stmt.stop].length ∧ ∀ t ∈ [Stmt.stop], t ≠ .label 3) ∧
    busyRun.status.state = .busy ∧ done0.status.state ≠ .busy := by decide

end Sys2Proof.Tests
end

/-! The invariant of the block: it holds at reset, and every step keeps it (O37, O38). -/

namespace Sys2Proof.Machine

variable {s t : State}

/-! ### What the invariant depends on -/

/-- The invariant speaks of the block alone: not of the response, nor of the model's own fields. -/
theorem Inv.of_sameBlock (h : Inv s) (hst : SameBlock s t) : Inv t := by
  obtain ⟨cap, buffers, flags, busy⟩ := h
  cases s; cases t
  dsimp only [SameBlock] at hst
  obtain ⟨rfl, rfl, rfl, rfl, rfl, rfl, rfl, rfl, rfl, rfl, rfl, rfl, rfl, rfl, rfl, rfl, rfl⟩ := hst
  exact ⟨cap, buffers, flags, fun hb =>
    let b := busy hb
    ⟨b.opLatched, b.lenLatched, b.reserved, b.checking, fun hp =>
      let r := b.running hp
      ⟨r.legal, r.fits, r.stored, r.hexEnc, r.hexDec, r.b32Enc⟩⟩⟩

/-- While no command runs, the invariant asks nothing of the internal registers. -/
theorem inv_of_not_busy (hc : CapInv s) (hbuf : BufferInv s) (hf : FlagInv s) (hb : s.status.state ≠ .busy) : Inv s :=
  ⟨hc, hbuf, hf, fun h => absurd h hb⟩

/-! ### Reset -/

/-- A block with the reset values of R39 meets the invariant, whatever its IN_CAP is and whatever the other registers hold. -/
theorem inv_of_reset_values (hc : CapInv s) (hst : s.status = State.reset.status) (hl : s.outLen = 0#18)
    (hin : s.inBuf = []) (hout : s.outBuf = []) : Inv s := by
  refine inv_of_not_busy hc ?_ ?_ ?_
  · simp [BufferInv, hin, hout, Memory.wf, Memory.below]
  · simp [FlagInv, ErrorInv, hst, hl]
  · simp [hst]

/-- IN_CAP is in its range for every choice behind it (R7). -/
theorem capInv_reset : CapInv State.reset := by
  have h : Config.inCap.toNat = Config.inCapChoice % 65536 + 1 := by
    rw [Config.inCap, BitVec.toNat_ofNat, Nat.mod_eq_of_lt (by omega)]
  simp only [CapInv, reset_cap, h]
  omega

/-- Settles O37: the range of IN_CAP is all that needs an argument. -/
theorem resetMeetsTheInvariant : Obligations.ResetMeetsTheInvariant :=
  inv_of_reset_values capInv_reset rfl rfl rfl rfl

/-- The reset event leads to a state that meets the invariant (R230). -/
theorem Inv.after_resetBlock (h : Inv s) : Inv (resetBlock s) :=
  inv_of_reset_values h.cap rfl rfl rfl rfl

/-! ### Host accesses -/

/-- A buffer read changes the response and, at an unspecified byte of OUT, the count of draws, but not the block (R55, R56). -/
theorem bufRead_sameBlock (a : Offset) (s : State) : SameBlock s (bufRead a s) := by
  unfold bufRead
  dsimp only
  by_cases hin : a.toNat < outBase
  · simp [SameBlock, hin]
  · rw [if_neg hin]
    by_cases hj : a.toNat - outBase < outCap s
    · rw [if_pos hj]
      cases outDefined s (a.toNat - outBase) <;> simp [SameBlock]
    · simp [SameBlock, hj]

/-- Everything a host access can do to the block (R52 to R56, R101, R104): nothing, a command request, or outside BUSY a write
to IN_LEN or to a byte of IN. -/
theorem hostAccess_cases (a : Access) (s : State) :
    SameBlock s (hostAccess a s) ∨
    (∃ w, hostAccess a s = request w { s with response := some .ok }) ∨
    (s.status.state ≠ .busy ∧ ∃ v, hostAccess a s = { s with inLen := v, response := some .ok }) ∨
    (s.status.state ≠ .busy ∧ ∃ i v, i < s.cap.toNat ∧
      hostAccess a s = { s with inBuf := Memory.write s.inBuf i v, response := some .ok }) := by
  by_cases hw : widthOk (accessAddr a) (accessWidth a) = true
  · cases a with
    | read4 a => exact .inl (by simp [SameBlock, hostAccess, hw])
    | read1 a => rw [hostAccess, if_pos hw]; exact .inl (bufRead_sameBlock a s)
    | write4 a v =>
      by_cases ha : a = cmdOffset
      · exact .inr (.inl ⟨v, by rw [ha, hostAccess_cmd]⟩)
      · by_cases hl : a = inLenOffset ∧ s.status.state ≠ .busy
        · exact .inr (.inr (.inl ⟨hl.2, _, by simp only [hostAccess, hw, regWrite, if_true, if_neg ha, if_pos hl]; rfl⟩))
        · exact .inl (by simp only [hostAccess, hw, regWrite, if_true, if_neg ha, if_neg hl]; simp [SameBlock])
    | write1 a v =>
      by_cases hi : a.toNat < outBase ∧ a.toNat - inBase < s.cap.toNat ∧ s.status.state ≠ .busy
      · exact .inr (.inr (.inr ⟨hi.2.2, _, v, hi.2.1, by simp only [hostAccess, hw, bufWrite, if_true, if_pos hi]⟩))
      · exact .inl (by simp only [hostAccess, hw, bufWrite, if_true, if_neg hi]; simp [SameBlock])
  · exact .inl (by simp [SameBlock, hostAccess, hw])

/-- A word with OP = 3 is reserved (R84, R102). -/
theorem illegalWord_of_op3 {w : Word} (h : w.extractLsb' 0 2 = 3#2) : illegalWord w = true := by
  simp [illegalWord, h]

/-- Acceptance starts a command that meets the invariant (R102). -/
theorem Inv.after_accept (h : Inv s) (w : Word) : Inv (accept w s) where
  cap := h.cap
  buffers := h.buffers
  flags := by simp [FlagInv, ErrorInv, acceptedStatus]
  busy _ := ⟨rfl, rfl, illegalWord_of_op3, fun _ => ⟨rfl, rfl⟩, fun hp => by simp at hp⟩

theorem Inv.after_request (h : Inv s) (w : Word) : Inv (request w s) := by
  by_cases hb : s.status.state = .busy
  · rwa [request_of_busy _ _ hb]
  · rw [request_of_not_busy _ _ hb]; exact h.after_accept w

/-- Outside BUSY the host may set IN_LEN (R26). -/
theorem Inv.set_inLen (h : Inv s) (hb : s.status.state ≠ .busy) (v : BitVec 17) : Inv { s with inLen := v } :=
  inv_of_not_busy h.cap h.buffers h.flags hb

/-- Outside BUSY the host may write a byte of IN (R24). -/
theorem Inv.write_inBuf (h : Inv s) (hb : s.status.state ≠ .busy) {i : Nat} (hi : i < s.cap.toNat) (v : Byte) :
    Inv { s with inBuf := Memory.write s.inBuf i v } := by
  obtain ⟨hwf, hbelow, hout⟩ := h.buffers
  exact inv_of_not_busy h.cap ⟨Memory.wf_write _ _ _ hwf, Memory.below_write _ _ _ _ hbelow hi, hout⟩ h.flags hb

/-- Setting the response leaves the invariant alone. -/
theorem Inv.set_response (h : Inv s) (r : Option Response) : Inv { s with response := r } :=
  h.of_sameBlock (by simp [SameBlock])

theorem Inv.after_hostAccess (h : Inv s) (a : Access) : Inv (hostAccess a s) := by
  rcases hostAccess_cases a s with hs | ⟨w, hs⟩ | ⟨hb, v, hs⟩ | ⟨hb, i, v, hi, hs⟩
  · exact h.of_sameBlock hs
  · rw [hs]; exact (h.set_response _).after_request w
  · rw [hs]; exact (h.set_inLen hb v).set_response _
  · rw [hs]; exact (h.write_inBuf hb hi v).set_response _

/-- Every event keeps the invariant. -/
theorem Inv.after_hostEvent (h : Inv s) (e : Event) : Inv (hostEvent e s) := by
  cases e with
  | access a => exact h.after_hostAccess a
  | reset => exact h.after_resetBlock
  | pause => exact h.set_response none

/-! ### The output so far -/

/-- OUT with capacity `c` after `p` output bytes: canonical, within the capacity, and every byte so far is stored (R25, R70). -/
structure OutputSound (m : Memory) (p c : Nat) : Prop where
  wf     : Memory.wf m = true
  below  : Memory.below m c = true
  stored : ∀ j < p, (Memory.read m j).isSome = true

/-- One more byte at the output cursor. -/
theorem OutputSound.write {m : Memory} {p c : Nat} (h : OutputSound m p c) (hp : p < c) (v : Byte) :
    OutputSound (Memory.write m p v) (p + 1) c where
  wf := Memory.wf_write _ _ _ h.wf
  below := Memory.below_write _ _ _ _ h.below hp
  stored j hj := by
    rw [Memory.read_write]
    split
    · rfl
    · exact h.stored j (by omega)

/-- The stored bytes fit the capacity (R112). -/
theorem OutputSound.le {m : Memory} {p c : Nat} (h : OutputSound m p c) : p ≤ c := by
  by_contra hlt
  have := h.stored c (by omega)
  simp [Memory.read_of_below m c c h.below le_rfl] at this

/-- The output of a running command. -/
theorem Inv.outputSound (h : Inv s) (hstored : OutputStored s s.outPtr.toNat) :
    OutputSound s.outBuf s.outPtr.toNat (outCap s) := by
  obtain ⟨-, -, hwf, hbelow⟩ := h.buffers
  exact ⟨hwf, hbelow, hstored⟩

/-! ### How a command ends or goes on -/

/-- Error entry keeps the invariant when code and info belong together (R200). -/
theorem Inv.after_raise (h : Inv s) (hb : s.status.state = .busy) {e : ErrCode} {info : Byte} (he : e ≠ .none)
    (hinfo : ErrorInv { s.status with errCode := e, errInfo := info }) : Inv (raise e info s) := by
  obtain ⟨-, -, hlen, -⟩ := h.flags
  have hlen : s.outLen = 0#18 := hlen (by simp [hb])
  refine inv_of_not_busy h.cap h.buffers ⟨?_, hinfo, fun _ => hlen, ?_, ?_⟩ ?_ <;> simp [he]

/-- Completion keeps the invariant: all output is stored (R106). -/
theorem Inv.after_complete (h : Inv s) (hb : s.status.state = .busy) (hr : RunInv s) : Inv (complete s) := by
  have busy := h.busy hb
  have hop : s.status.op ≠ 3#2 := fun h3 => by
    have := busy.reserved (busy.opLatched.trans h3)
    simp [hr.legal] at this
  have hfit : s.outPtr.toNat ≤ outCap s := (h.outputSound hr.stored).le
  refine inv_of_not_busy h.cap h.buffers ⟨?_, ?_, ?_, fun _ => ⟨hfit, hop, hr.stored⟩, ?_⟩ ?_ <;> simp [ErrorInv]

/-- What the datapath hands from one step to the next: sound output, and the law of the unit CUR_OP selects. -/
structure DatapathInv (s : State) : Prop where
  output : OutputSound s.outBuf s.outPtr.toNat (outCap s)
  hexEnc : s.curOp = 0#2 → HexEncoderInv s
  hexDec : s.curOp = 1#2 → HexDecoderInv s
  b32Enc : s.curOp = 2#2 → Base32EncoderInv s

/-- A core step after which the command still runs keeps the invariant when it hands on the datapath's law: the rest is the
frame of the step. -/
theorem Inv.of_running (h : Inv s) (hb : s.status.state = .busy) (hst : coreStep s = .next t) (hs : t.status = s.status)
    (hl : t.outLen = s.outLen) (hp : t.phase = .run) (hill : s.ill = false) (hfit : s.n ≤ s.cap)
    (hd : DatapathInv t) : Inv t := by
  obtain ⟨⟨hin, hlen, hcap, -⟩, -, hop, hill', hn, -⟩ := coreStep_frame hst
  obtain ⟨capInv, ⟨hwf, hbelow, -⟩, ⟨herr, hinfo, hlen0, -⟩, busy⟩ := h
  obtain ⟨opLatched, lenLatched, reserved, -, -⟩ := busy hb
  have flags : FlagInv t := by
    refine ⟨by rwa [hs], by rwa [hs], fun _ => ?_, ?_, ?_⟩
    · rw [hl]; exact hlen0 (by simp [hb])
    · simp [hs, hb]
    · simp [hs, hb]
  have run : RunInv t :=
    ⟨hill'.trans hill, by rwa [hn, hcap], hd.output.stored, hd.hexEnc, hd.hexDec, hd.b32Enc⟩
  exact {
    cap := by rwa [CapInv, hcap]
    buffers := ⟨by rwa [hin], by rwa [hin, hcap], hd.output.wf, hd.output.below⟩
    flags := flags
    busy := fun _ => {
      opLatched := by rwa [hop, hs]
      lenLatched := by rwa [hn, hlen]
      reserved := by rwa [hop, hill']
      checking := by simp [hp]
      running := fun _ => run } }

/-- `Inv.of_running` for a step of the datapath: before it the checks have passed. -/
theorem Inv.of_datapath (h : Inv s) (hb : s.status.state = .busy) (hr : RunInv s) (hst : coreStep s = .next t)
    (hs : t.status = s.status) (hl : t.outLen = s.outLen) (hp : t.phase = .run) (hd : DatapathInv t) : Inv t :=
  h.of_running hb hst hs hl hp hr.legal hr.fits hd

/-- The CHECK step keeps the invariant (R105, R205). -/
theorem Inv.after_checkStep (h : Inv s) (hb : s.status.state = .busy) (hp : s.phase = .check) : Inv (checkStep s) := by
  rcases checkStep_cases s with ⟨-, hc⟩ | ⟨-, -, hc⟩ | ⟨hill, hfit, hc⟩
  · rw [hc]; exact h.after_raise hb (by decide) (by simp [ErrorInv])
  · rw [hc]; exact h.after_raise hb (by decide) (by simp [ErrorInv])
  · obtain ⟨hidx, hptr⟩ := (h.busy hb).checking hp
    have hst : coreStep s = .next (checked s) := by rw [coreStep_check hb hp, hc]
    rw [hc]
    refine h.of_running hb hst rfl rfl rfl hill hfit ⟨h.outputSound ?_, ?_, ?_, ?_⟩
    · simp [OutputStored, hptr]
    · simp [HexEncoderInv, BitVec.le_def, hidx, hptr]
    · simp [HexDecoderInv, hidx, hptr]
    · simp [Base32EncoderInv, BitVec.le_def, hidx, hptr]

/-! ### hex_encoder (R125) -/

theorem hexEncoderInv_hexEncoded (h : HexEncoderInv s) (hlt : s.idx < s.n) (h1 : s.outPtr.toNat < outCap s)
    (h2 : (s.outPtr + 1#18).toNat < outCap s) (b : Byte) : HexEncoderInv (hexEncoded s b) := by
  obtain ⟨-, hptr⟩ := h
  have e1 := outPtr_succ h1
  have e2 := outPtr_succ (s := { s with outPtr := s.outPtr + 1#18 }) h2
  have ei := idx_succ (BitVec.lt_def.mp hlt)
  refine ⟨BitVec.le_def.mpr ?_, ?_⟩
  · have := BitVec.lt_def.mp hlt
    simp only [ei]; omega
  · simp only [ei, e1, e2] at *; omega

theorem Inv.after_hexEncoderStep (h : Inv s) (hb : s.status.state = .busy) (hp : s.phase = .run) (ho : s.curOp = 0#2)
    (hst : hexEncoderStep s = .next t) : Inv t := by
  have run := (h.busy hb).running hp
  rcases hexEncoderStep_next hst with ⟨hlt, h1, h2, b, -, -, rfl⟩ | ⟨-, rfl⟩
  · have e1 := outPtr_succ h1
    have e2 := outPtr_succ (s := { s with outPtr := s.outPtr + 1#18 }) h2
    refine h.of_datapath hb run (by rw [coreStep_hexEncoder hb hp ho, hst]) rfl rfl hp
      ⟨?_, fun _ => hexEncoderInv_hexEncoded (run.hexEnc ho) hlt h1 h2 b, ?_, ?_⟩
    · simp only [e2, e1] at h2 ⊢
      exact ((h.outputSound run.stored).write h1 _).write h2 _
    · simp [ho]
    · simp [ho]
  · exact h.after_complete hb run

/-! ### hex_decoder (R147) -/

theorem consumed_le (n : Nat) : consumed n ≤ n := by unfold consumed; omega

theorem hexDecoderInv_hexHighTaken (h : HexDecoderInv s) (hlt : s.idx.toNat < consumed s.n.toNat) (hh : s.half = false)
    (v : Nibble) : HexDecoderInv (hexHighTaken s v) := by
  obtain ⟨-, hptr, hhalf⟩ := h
  have ei := idx_succ (hlt.trans_le (consumed_le _))
  have heven : ¬ s.idx.toNat % 2 = 1 := by simpa [hh] using hhalf
  refine ⟨?_, ?_, ?_⟩
  · simp only [ei]; omega
  · simp only [ei]; omega
  · have : (s.idx.toNat + 1) % 2 = 1 := by omega
    simp only [ei, this, decide_true]

theorem hexDecoderInv_hexLowTaken (h : HexDecoderInv s) (hlt : s.idx.toNat < consumed s.n.toNat) (hh : s.half = true)
    (hr : s.outPtr.toNat < outCap s) (v : Nibble) : HexDecoderInv (hexLowTaken s v) := by
  obtain ⟨-, hptr, hhalf⟩ := h
  have ei := idx_succ (hlt.trans_le (consumed_le _))
  have e1 := outPtr_succ hr
  have hodd : s.idx.toNat % 2 = 1 := by simpa [hh] using hhalf
  refine ⟨?_, ?_, ?_⟩
  · simp only [ei]; omega
  · simp only [ei, e1]; omega
  · have : ¬ (s.idx.toNat + 1) % 2 = 1 := by omega
    simp only [ei, this, decide_false]

theorem Inv.after_hexDecoderStep (h : Inv s) (hb : s.status.state = .busy) (hp : s.phase = .run) (ho : s.curOp = 1#2)
    (hst : hexDecoderStep s = .next t) : Inv t := by
  have run := (h.busy hb).running hp
  have hcore : coreStep s = .next t := by rw [coreStep_hexDecoder hb hp ho, hst]
  rcases hexDecoderStep_next hst with ⟨hlt, -, c, -, ⟨hv, rfl⟩ | ⟨v, -, ⟨hh, rfl⟩ | ⟨hh, hr, rfl⟩⟩⟩ | ⟨-, rfl⟩
  · exact h.after_raise hb (by decide) (by simp [ErrorInv, hv])
  · refine h.of_datapath hb run hcore rfl rfl hp
      ⟨h.outputSound run.stored, ?_, fun _ => hexDecoderInv_hexHighTaken (run.hexDec ho) hlt hh v, ?_⟩
    · simp [ho]
    · simp [ho]
  · refine h.of_datapath hb run hcore rfl rfl hp
      ⟨?_, ?_, fun _ => hexDecoderInv_hexLowTaken (run.hexDec ho) hlt hh hr v, ?_⟩
    · simp only [outPtr_succ hr]
      exact (h.outputSound run.stored).write hr _
    · simp [ho]
    · simp [ho]
  · exact h.after_complete hb run

/-! ### base32_encoder (R167) -/

theorem base32EncoderInv_byteLoaded (h : Base32EncoderInv s) (h5 : s.n.toNat % 5 = 0) (hl : s.loads < 5#3)
    (hlt : s.idx < s.n) (b : Byte) : Base32EncoderInv (byteLoaded s b) := by
  obtain ⟨-, -, hload, -⟩ := h
  obtain ⟨hsyms, hidx, hptr⟩ := hload h5 hl
  have hlt := BitVec.lt_def.mp hlt
  have ei := idx_succ hlt
  have hl : s.loads.toNat < 5 := BitVec.lt_def.mp hl
  have el : (s.loads + 1#3).toNat = s.loads.toNat + 1 := by
    rw [BitVec.toNat_add]; exact Nat.mod_eq_of_lt (by simp; omega)
  refine ⟨BitVec.le_def.mpr ?_, fun hn => absurd h5 hn, fun _ hl' => ?_, fun _ hl' => ?_⟩
  · simp only [ei]; omega
  · have hl' : s.loads.toNat + 1 < 5 := el ▸ BitVec.lt_def.mp hl'
    refine ⟨hsyms, ?_, ?_⟩
    · simp only [ei, el]; omega
    · simp only [ei]; omega
  · have hl' : ¬ s.loads.toNat + 1 < 5 := el ▸ fun hc => hl' (BitVec.lt_def.mpr hc)
    refine ⟨BitVec.eq_of_toNat_eq ?_, ?_, ?_, ?_⟩
    · simp only [el, BitVec.toNat_ofNat]; omega
    · simp [hsyms]
    · simp only [ei]; omega
    · simp only [ei, hsyms, BitVec.toNat_ofNat]; omega

theorem base32EncoderInv_symbolOut (h : Base32EncoderInv s) (h5 : s.n.toNat % 5 = 0) (hl : s.loads = 5#3)
    (hr : s.outPtr.toNat < outCap s) : Base32EncoderInv (symbolOut s) := by
  obtain ⟨hle, -, -, hcut⟩ := h
  obtain ⟨-, hsyms, hidx, hptr⟩ := hcut h5 (by simp [hl])
  have e1 := outPtr_succ hr
  have hsyms : s.syms.toNat < 8 := BitVec.lt_def.mp hsyms
  have es : (s.syms + 1#4).toNat = s.syms.toNat + 1 := by
    rw [BitVec.toNat_add]; exact Nat.mod_eq_of_lt (by simp; omega)
  unfold symbolOut countSymbol
  dsimp only
  split
  · rename_i h8
    have h8 : s.syms.toNat + 1 = 8 := by rw [← es, h8]; rfl
    refine ⟨hle, fun hn => absurd h5 hn, fun _ _ => ⟨rfl, hidx, ?_⟩, fun _ hl' => absurd (show 0#3 < 5#3 by decide) hl'⟩
    simp only [e1]; omega
  · rename_i h8
    have h8 : s.syms.toNat + 1 ≠ 8 := fun hc => h8 (BitVec.eq_of_toNat_eq (es.trans hc))
    refine ⟨hle, fun hn => absurd h5 hn, fun _ hl' => absurd hl' (by simp [hl]),
      fun _ _ => ⟨hl, BitVec.lt_def.mpr ?_, hidx, ?_⟩⟩
    · simp only [es, BitVec.toNat_ofNat]; omega
    · simp only [es, e1]; omega

/-- What an extraction does to the flags, the command's registers and the output, whether or not it ends its group. -/
theorem symbolOut_fields (s : State) :
    (symbolOut s).status = s.status ∧ (symbolOut s).outLen = s.outLen ∧ (symbolOut s).phase = s.phase ∧
    (symbolOut s).curOp = s.curOp ∧ (symbolOut s).cap = s.cap ∧ (symbolOut s).outPtr = s.outPtr + 1#18 ∧
    (symbolOut s).outBuf = Memory.write s.outBuf s.outPtr.toNat (b32Lut (topSymbol s.sr40)) := by
  unfold symbolOut countSymbol; split <;> simp

theorem Inv.after_base32EncoderStep (h : Inv s) (hb : s.status.state = .busy) (hp : s.phase = .run) (ho : s.curOp = 2#2)
    (hst : base32EncoderStep s = .next t) : Inv t := by
  have run := (h.busy hb).running hp
  have hcore : coreStep s = .next t := by rw [coreStep_base32Encoder hb hp ho, hst]
  rcases base32EncoderStep_next hst with ⟨-, rfl⟩ | ⟨h5, hl, hlt, -, b, -, rfl⟩ | ⟨h5, hl, hr, rfl⟩ | ⟨-, -, -, rfl⟩
  · exact h.after_raise hb (by decide) (by simp [ErrorInv])
  · refine h.of_datapath hb run hcore rfl rfl hp
      ⟨h.outputSound run.stored, ?_, ?_, fun _ => base32EncoderInv_byteLoaded (run.b32Enc ho) h5 hl hlt b⟩
    · simp [ho]
    · simp [ho]
  · obtain ⟨hs, hlen, hphase, hop, hcap, hptr, hbuf⟩ := symbolOut_fields s
    refine h.of_datapath hb run hcore hs hlen (hphase.trans hp)
      ⟨?_, ?_, ?_, fun _ => base32EncoderInv_symbolOut (run.b32Enc ho) h5 hl hr⟩
    · rw [hptr, hbuf, outPtr_succ hr, outCap, hcap]
      exact (h.outputSound run.stored).write hr _
    · simp [hop, ho]
    · simp [hop, ho]
  · exact h.after_complete hb run

/-! ### Every step -/

/-- Every core step keeps the invariant. -/
theorem Inv.after_coreStep (h : Inv s) (hst : coreStep s = .next t) : Inv t := by
  rcases coreStep_cases hst with ⟨-, rfl⟩ | ⟨hb, hp, rfl⟩ | ⟨hb, hp, ho, hst⟩ | ⟨hb, hp, ho, hst⟩ | ⟨hb, hp, ho, hst⟩
  · exact h
  · exact h.after_checkStep hb hp
  · exact h.after_hexEncoderStep hb hp ho hst
  · exact h.after_hexDecoderStep hb hp ho hst
  · exact h.after_base32EncoderStep hb hp ho hst

/-- The core steps between two events keep the invariant. -/
theorem Inv.after_coreRun (h : Inv s) {k : Nat} (hst : coreRun k s = .next t) : Inv t :=
  coreRun_keeps Inv (fun _ _ hi => hi.after_coreStep) hst h

theorem Inv.after_settle (h : Inv s) (hst : settle s = .next t) : Inv t :=
  (h.of_sameBlock (t := { s with gap := 0 }) (by simp [SameBlock])).after_coreRun hst

/-- Settles O38: a step is one core step, or an event and then core steps, and each of these keeps the invariant. -/
theorem stepKeepsTheInvariant : Obligations.StepKeepsTheInvariant := by
  intro s t h hst
  rcases step_cases hst with ⟨-, hst⟩ | ⟨u, rest, -, hst⟩
  · exact h.after_coreStep hst
  · have hnext : Inv { s with agenda := rest, gap := u.gap } := h.of_sameBlock (by simp [SameBlock])
    exact (hnext.after_hostEvent u.event).after_settle hst

end Sys2Proof.Machine

/-! Two runs of one command: its result depends only on its word, IN_LEN and the first IN_LEN bytes of IN (O39, R6). -/

namespace Sys2Proof.Machine

variable {s t s' t' : State} {R : State → State → Prop}

/-! ### Outcomes that agree -/

/-- Two outcomes agree up to `R`: both go on, to related states, or both stop for the same reason. -/
inductive ResultRel (R : State → State → Prop) : Result → Result → Prop where
  | next {s t : State} (h : R s t) : ResultRel R (.next s) (.next t)
  | fault (f : Fault) : ResultRel R (.fault f) (.fault f)
  | refused (r : Refusal) : ResultRel R (.refused r) (.refused r)

theorem ResultRel.of_next {r : Result} (h : ResultRel R (.next s) r) : ∃ t, r = .next t ∧ R s t := by
  cases h with
  | next h => exact ⟨_, rfl, h⟩

theorem ResultRel.of_fault {f : Fault} {r : Result} (h : ResultRel R (.fault f) r) : r = .fault f := by
  cases h; rfl

theorem ResultRel.andThen {r r' : Result} {k k' : State → Result} (h : ResultRel R r r')
    (hk : ∀ s t, R s t → ResultRel R (k s) (k' t)) : ResultRel R (andThen r k) (andThen r' k') := by
  cases h with
  | next h => exact hk _ _ h
  | fault f => exact .fault f
  | refused r => exact .refused r

/-! ### Blocks that run the same command on the same input -/

/-- Two blocks agree on the running command: on its registers, on the input it may read, on the output it has stored, and on
the result once there is one. Of the units' registers nothing is asked until CHECK has cleared them (R105). -/
structure SameCommand (s t : State) : Prop where
  status  : t.status = s.status
  outLen  : t.outLen = s.outLen
  cap     : t.cap = s.cap
  curOp   : t.curOp = s.curOp
  ill     : t.ill = s.ill
  n       : t.n = s.n
  idx     : t.idx = s.idx
  outPtr  : t.outPtr = s.outPtr
  phase   : t.phase = s.phase
  units   : s.phase = .run →
    t.pairSr = s.pairSr ∧ t.half = s.half ∧ t.sr40 = s.sr40 ∧ t.loads = s.loads ∧ t.syms = s.syms
  input   : ∀ i < s.n.toNat, Memory.read t.inBuf i = Memory.read s.inBuf i
  stored  : ∀ j < s.outPtr.toNat, Memory.read t.outBuf j = Memory.read s.outBuf j
  defined : s.status.state = .done → ∀ j < s.outLen.toNat, Memory.read t.outBuf j = Memory.read s.outBuf j

/-- Acceptance makes two blocks agree that have the capacity, IN_LEN and the input in common (R102). -/
theorem sameCommand_accept (w : Word) (hcap : s.cap = t.cap) (hlen : s.inLen = t.inLen)
    (hin : ∀ i < s.inLen.toNat, Memory.read s.inBuf i = Memory.read t.inBuf i) :
    SameCommand (accept w s) (accept w t) where
  status := rfl
  outLen := rfl
  cap := hcap.symm
  curOp := rfl
  ill := rfl
  n := hlen.symm
  idx := rfl
  outPtr := rfl
  phase := rfl
  units hp := by simp at hp
  input i hi := (hin i hi).symm
  stored j hj := by simp at hj
  defined hd := by simp at hd

/-- Blocks that agree show the same bytes of the result (R40). -/
theorem SameCommand.outDefined_eq (h : SameCommand s t) (j : Nat) : outDefined t j = outDefined s j := by
  simp only [outDefined, h.status, h.outLen]
  split
  · rename_i hj; exact h.defined hj.1 j hj.2
  · rfl

theorem SameCommand.after_raise (h : SameCommand s t) (e : ErrCode) (info : Byte) :
    SameCommand (raise e info s) (raise e info t) :=
  { h with
    status := by simp [h.status]
    defined := by simp }

theorem SameCommand.after_complete (h : SameCommand s t) : SameCommand (complete s) (complete t) :=
  { h with
    status := by simp [h.status]
    outLen := h.outPtr
    defined := fun _ => h.stored }

theorem SameCommand.after_checkStep (h : SameCommand s t) : SameCommand (checkStep s) (checkStep t) := by
  have hc : check t.ill t.n t.cap = check s.ill s.n s.cap := by rw [h.ill, h.n, h.cap]
  simp only [checkStep, hc]
  cases check s.ill s.n s.cap with
  | some e => exact h.after_raise _ _
  | none => exact { h with phase := rfl, units := fun _ => ⟨rfl, rfl, rfl, rfl, rfl⟩ }

/-! ### One core step of both -/

/-- Both read the same input byte, or both stop at it. -/
theorem SameCommand.after_withInput (h : SameCommand s t) {k k' : Byte → Result} (hi : s.idx.toNat < s.n.toNat)
    (hk : ∀ b, ResultRel R (k b) (k' b)) :
    ResultRel R (withInput s s.idx.toNat k) (withInput t t.idx.toNat k') := by
  unfold withInput
  rw [h.cap, h.idx, h.input _ hi]
  split
  · cases Memory.read s.inBuf s.idx.toNat with
    | some b => exact hk b
    | none => exact .fault _
  · exact .fault _

/-- The state after an output byte (R11, R70). -/
abbrev byteOut (v : Byte) (s : State) : State :=
  { s with outBuf := Memory.write s.outBuf s.outPtr.toNat v, outPtr := s.outPtr + 1#18 }

/-- The same byte at the same index keeps every agreement on OUT, and adds that byte to it. -/
theorem SameCommand.after_byteOut (h : SameCommand s t) (v : Byte) (hr : s.outPtr.toNat < outCap s) :
    SameCommand (byteOut v s) (byteOut v t) := by
  have hread : ∀ j, (j ≠ s.outPtr.toNat → Memory.read t.outBuf j = Memory.read s.outBuf j) →
      Memory.read (byteOut v t).outBuf j = Memory.read (byteOut v s).outBuf j := by
    intro j hj
    simp only [h.outPtr, Memory.read_write]
    split
    · rfl
    · rename_i hne; exact hj (Ne.symm hne)
  refine { h with
    outPtr := by simp [h.outPtr]
    stored := fun j hj => hread j fun hne => h.stored j ?_
    defined := fun hd j hj => hread j fun _ => h.defined hd j hj }
  simp only [outPtr_succ hr] at hj
  omega

/-- Both store the same output byte at the same index, or both find no room for it. -/
theorem SameCommand.after_emit (h : SameCommand s t) (v : Byte) {k k' : State → Result}
    (hk : SameCommand (byteOut v s) (byteOut v t) → ResultRel R (k (byteOut v s)) (k' (byteOut v t))) :
    ResultRel R (emit v s k) (emit v t k') := by
  by_cases hr : s.outPtr.toNat < outCap s
  · rw [emit_of_room hr, emit_of_room (by rwa [outCap, h.cap, h.outPtr])]
    exact hk (h.after_byteOut v hr)
  · rw [emit, emit, if_neg hr, if_neg (by rwa [outCap, h.cap, h.outPtr]), h.outPtr]
    exact .fault _

theorem SameCommand.after_hexEncoderStep (h : SameCommand s t) :
    ResultRel SameCommand (hexEncoderStep s) (hexEncoderStep t) := by
  unfold hexEncoderStep
  by_cases hlt : s.idx < s.n
  · rw [if_pos hlt, if_pos (by rwa [h.idx, h.n])]
    refine h.after_withInput (BitVec.lt_def.mp hlt) fun b => h.after_emit _ fun h1 => h1.after_emit _ fun h2 => .next ?_
    exact { h2 with idx := by simp [h.idx] }
  · rw [if_neg hlt, if_neg (by rwa [h.idx, h.n])]
    exact .next h.after_complete

/-- Both take the same character (R146). -/
theorem SameCommand.after_hexDecoderTake (h : SameCommand s t) (hp : s.phase = .run) (v : Nibble) :
    ResultRel SameCommand (hexDecoderTake v s) (hexDecoderTake v t) := by
  obtain ⟨hpair, hhalf, hrest⟩ := h.units hp
  have htake : SameCommand { s with pairSr := shiftPair s.pairSr v, half := !s.half, idx := s.idx + 1#17 }
      { t with pairSr := shiftPair t.pairSr v, half := !t.half, idx := t.idx + 1#17 } :=
    { h with idx := by simp [h.idx], units := fun _ => ⟨by simp [hpair], by simp [hhalf], hrest⟩ }
  simp only [hexDecoderTake, hhalf, hpair] at htake ⊢
  split
  · exact htake.after_emit _ .next
  · exact .next htake

theorem SameCommand.after_hexDecoderStep (h : SameCommand s t) (hp : s.phase = .run) :
    ResultRel SameCommand (hexDecoderStep s) (hexDecoderStep t) := by
  unfold hexDecoderStep
  by_cases hlt : s.idx.toNat < consumed s.n.toNat
  · rw [if_pos hlt, if_pos (by rwa [h.idx, h.n])]
    refine h.after_withInput (hlt.trans_le (consumed_le _)) fun c => ?_
    cases decLut c with
    | none => exact .next (h.after_raise _ _)
    | some v => exact h.after_hexDecoderTake hp v
  · rw [if_neg hlt, if_neg (by rwa [h.idx, h.n])]
    exact .next h.after_complete

/-- Both count the same symbol (R166). -/
theorem SameCommand.after_countSymbol (h : SameCommand s t) (hp : s.phase = .run) :
    SameCommand (countSymbol s) (countSymbol t) := by
  obtain ⟨hpair, hhalf, hsr, hloads, hsyms⟩ := h.units hp
  unfold countSymbol
  rw [hsyms]
  split
  · exact { h with units := fun _ => ⟨hpair, hhalf, hsr, rfl, rfl⟩ }
  · exact { h with units := fun _ => ⟨hpair, hhalf, hsr, hloads, rfl⟩ }

theorem SameCommand.after_base32EncoderStep (h : SameCommand s t) (hp : s.phase = .run) :
    ResultRel SameCommand (base32EncoderStep s) (base32EncoderStep t) := by
  obtain ⟨hpair, hhalf, hsr, hloads, hsyms⟩ := h.units hp
  unfold base32EncoderStep base32Extract
  by_cases h5 : s.n.toNat % 5 ≠ 0
  · rw [if_pos h5, if_pos (by rwa [h.n])]
    exact .next (h.after_raise _ _)
  rw [if_neg h5, if_neg (show ¬ t.n.toNat % 5 ≠ 0 by rwa [h.n])]
  by_cases hl : s.loads < 5#3 ∧ s.idx < s.n
  · rw [if_pos hl, if_pos (by rwa [hloads, h.idx, h.n])]
    refine h.after_withInput (BitVec.lt_def.mp hl.2) fun b => .next ?_
    exact { h with idx := by simp [h.idx], units := fun _ => ⟨hpair, hhalf, by simp [hsr], by simp [hloads], hsyms⟩ }
  rw [if_neg hl, if_neg (show ¬ (t.loads < 5#3 ∧ t.idx < t.n) by rwa [hloads, h.idx, h.n])]
  by_cases hl5 : s.loads = 5#3
  · rw [if_pos hl5, if_pos (hloads.trans hl5), hsr]
    refine h.after_emit _ fun h1 => .next (SameCommand.after_countSymbol ?_ hp)
    exact { h1 with units := fun _ => ⟨hpair, hhalf, rfl, hloads, hsyms⟩ }
  · rw [if_neg hl5, if_neg (by rwa [hloads])]
    exact .next h.after_complete

theorem SameCommand.after_coreStep (h : SameCommand s t) : ResultRel SameCommand (coreStep s) (coreStep t) := by
  by_cases hb : s.status.state = .busy
  · have hb' : t.status.state = .busy := by rw [h.status, hb]
    cases hp : s.phase with
    | check =>
      rw [coreStep_check hb hp, coreStep_check hb' (h.phase.trans hp)]
      exact .next h.after_checkStep
    | run =>
      rw [coreStep_run hb hp, coreStep_run hb' (h.phase.trans hp)]
      simp only [runStep, h.curOp]
      split_ifs
      · exact h.after_hexEncoderStep
      · exact h.after_hexDecoderStep hp
      · exact h.after_base32EncoderStep hp
      · exact .fault _
  · rw [coreStep_of_not_busy hb, coreStep_of_not_busy (by rwa [h.status])]
    exact .next h

/-! ### The two runs -/

/-- Blocks that agree go on to agree, and stop together. -/
theorem SameCommand.after_coreRun (h : SameCommand s t) (k : Nat) : ResultRel SameCommand (coreRun k s) (coreRun k t) := by
  induction k generalizing s t with
  | zero => exact .next h
  | succ k ih => exact h.after_coreStep.andThen fun _ _ => ih

/-- Settles O39: acceptance makes the two blocks agree on the command, and every core step keeps them so. -/
theorem resultDependsOnlyOnTheInput : Obligations.ResultDependsOnlyOnTheInput := by
  intro s1 s2 w k hcap hlen hin
  have hrun := (sameCommand_accept w hcap hlen hin).after_coreRun k
  refine ⟨fun t1 h1 => ?_, fun f h1 => (h1 ▸ hrun).of_fault⟩
  obtain ⟨t2, h2, h⟩ := (h1 ▸ hrun).of_next
  exact ⟨t2, h2, h.status, h.outLen, h.outDefined_eq⟩

end Sys2Proof.Machine

/-! The registers, the tables, and what a command, an event and a core step leave alone (O6, O12, O31, O40, O42, O46, O49). -/

namespace Sys2Proof.Machine

variable {s t : State}

/-! ### What a command leaves alone -/

/-- A command's word carries the command's OP code (R80, R81). -/
theorem opField_encode (i : Instr) : opField (encode i) = opcode i := by cases i <;> rfl

/-- While BUSY a command is only the core steps that fall before the next event (R104). -/
theorem exec_of_busy (i : Instr) (hb : s.status.state = .busy) : exec i s = coreRun s.gap { s with gap := 0 } := by
  rw [exec_eq, request_of_busy _ _ hb]; rfl

/-- OUT_LEN as STATE asks for it (R27): 0 while a command runs and after an error, OUT_PTR once it is done. -/
structure OutLenFitsState (s : State) : Prop where
  busy  : s.status.state = .busy → s.outLen = 0#18
  error : s.status.state = .error → s.outLen = 0#18
  done  : s.status.state = .done → s.outLen = s.outPtr

theorem outLenFitsState_of_busy (hb : s.status.state = .busy) (hl : s.outLen = 0#18) : OutLenFitsState s :=
  ⟨fun _ => hl, fun _ => hl, fun hd => by simp [hb] at hd⟩

/-- A core step goes on with OUT_LEN = 0, completes or raises an error, and each fits (R106, R200). -/
theorem OutLenFitsState.after_coreStep (h : OutLenFitsState s) (hst : coreStep s = .next t) : OutLenFitsState t := by
  by_cases hb : s.status.state = .busy
  · rcases coreStep_status hst hb with ⟨hs, hl⟩ | rfl | ⟨e, info, -, rfl⟩
    · exact outLenFitsState_of_busy (hs ▸ hb) (hl.trans (h.busy hb))
    · exact ⟨by simp, by simp, fun _ => rfl⟩
    · exact ⟨by simp, fun _ => h.busy hb, by simp⟩
  · rw [coreStep_of_not_busy hb] at hst
    cases hst
    exact h

theorem OutLenFitsState.after_coreRun (h : OutLenFitsState s) {k : Nat} (hst : coreRun k s = .next t) :
    OutLenFitsState t :=
  coreRun_keeps OutLenFitsState (fun _ _ hs hst => hs.after_coreStep hst) hst h

/-- Settles O31: a command is a run of core steps, from the accepted state or, while BUSY, from the running one. -/
theorem commandFrame : Obligations.CommandFrame := by
  intro i s t h
  by_cases hb : s.status.state = .busy
  · rw [exec_of_busy i hb] at h
    obtain ⟨hin, -, hcur, -, hn, hop⟩ := coreRun_frame h
    obtain ⟨-, hout⟩ := coreRun_output h
    refine ⟨hin, fun hnb => absurd hb hnb, fun _ => ⟨hop, hcur, hn⟩, fun j hj => hout j (.inr hj),
      fun _ j hj => hout j (.inl hj), fun hl => ?_⟩
    have hstart : OutLenFitsState { s with gap := 0 } := outLenFitsState_of_busy hb (hl hb)
    obtain ⟨hbusy, herr, hdone⟩ := hstart.after_coreRun h
    exact ⟨hbusy, herr, hdone⟩
  · rw [exec_of_not_busy i hb] at h
    obtain ⟨hin, -, hcur, -, hn, hop⟩ := coreRun_frame h
    obtain ⟨-, hout⟩ := coreRun_output h
    refine ⟨hin, fun _ => ⟨hop.trans (opField_encode i), hcur.trans (opField_encode i), hn⟩,
      fun hbusy => absurd hbusy hb, fun j hj => hout j (.inr hj), fun hbusy => absurd hbusy hb, fun _ => ?_⟩
    obtain ⟨hbusy, herr, hdone⟩ := (outLenFitsState_of_busy rfl rfl).after_coreRun h
    exact ⟨hbusy, herr, hdone⟩

/-! ### Who writes the flags -/

/-- An access that changes the flags is a CMD write outside BUSY (R41, R104). -/
theorem hostAccess_writes_flags {a : Access} (h : (hostAccess a s).status ≠ s.status) :
    ∃ w, a = .write4 cmdOffset w ∧ s.status.state ≠ .busy := by
  have hb : s.status.state ≠ .busy := fun hb => h (hostAccess_busy a hb).1
  by_contra hno
  push Not at hno
  exact h (hostAccess_flags fun w ha => hb (hno w ha)).1

/-- Settles O42: the events one by one, then the three ways a busy core step can leave the flags. -/
theorem flagsHaveFourWriters : Obligations.FlagsHaveFourWriters := by
  refine ⟨fun e s h => ?_, fun s t h hne => ?_⟩
  · cases e with
    | reset => exact .inl rfl
    | pause => exact absurd rfl h
    | access a =>
      obtain ⟨w, rfl, hb⟩ := hostAccess_writes_flags h
      exact .inr ⟨w, rfl, hb⟩
  · have hb : s.status.state = .busy := by
      by_contra hb
      rw [coreStep_of_not_busy hb] at h
      cases h
      exact hne rfl
    refine ⟨hb, ?_⟩
    rcases coreStep_status h hb with ⟨hs, -⟩ | rfl | ⟨e, info, he, rfl⟩
    · exact absurd hs hne
    · exact .inl ⟨rfl, rfl⟩
    · exact .inr ⟨e, info, he, rfl, rfl⟩

/-! ### The STATUS word -/

/-- The STATUS word as a number: each field at the weight of its lowest bit (R28). -/
theorem statusWord_toNat (st : Status) : (statusWord st).toNat =
    st.op.toNat * 2 ^ 16 + st.errInfo.toNat * 2 ^ 8 + (errBits st.errCode).toNat * 2 ^ 4 + (stateBits st.state).toNat := by
  simp only [statusWord, toNat_append', BitVec.toNat_ofNat]
  omega

/-- A field of the STATUS word, from its place in the number. -/
theorem statusWord_field (st : Status) {lo n : Nat} {v : BitVec n}
    (h : (st.op.toNat * 2 ^ 16 + st.errInfo.toNat * 2 ^ 8 + (errBits st.errCode).toNat * 2 ^ 4 +
      (stateBits st.state).toNat) / 2 ^ lo % 2 ^ n = v.toNat) : (statusWord st).extractLsb' lo n = v := by
  apply BitVec.eq_of_toNat_eq
  rw [BitVec.extractLsb'_toNat, Nat.shiftRight_eq_div_pow, statusWord_toNat, h]

theorem statusWord_state (st : Status) : (statusWord st).extractLsb' 0 2 = stateBits st.state :=
  statusWord_field st (by omega)

theorem statusWord_errCode (st : Status) : (statusWord st).extractLsb' 4 3 = errBits st.errCode :=
  statusWord_field st (by omega)

theorem statusWord_errInfo (st : Status) : (statusWord st).extractLsb' 8 8 = st.errInfo :=
  statusWord_field st (by omega)

theorem statusWord_op (st : Status) : (statusWord st).extractLsb' 16 2 = st.op :=
  statusWord_field st (by omega)

/-- The reserved bits 3:2, 7 and 31:18 are 0 (R28). -/
theorem statusWord_reserved (st : Status) : (statusWord st).extractLsb' 2 2 = 0#2 ∧
    (statusWord st).extractLsb' 7 1 = 0#1 ∧ (statusWord st).extractLsb' 18 14 = 0#14 := by
  refine ⟨statusWord_field st ?_, statusWord_field st ?_, statusWord_field st ?_⟩ <;>
    (simp only [BitVec.toNat_ofNat]; omega)

/-- Settles O6: the fields by their places, and then the codes by their table. -/
theorem statusWordLayout : Obligations.StatusWordLayout := by
  intro st
  obtain ⟨h2, h7, h18⟩ := statusWord_reserved st
  refine ⟨statusWord_state st, h2, statusWord_errCode st, h7, statusWord_errInfo st, statusWord_op st, h18, ?_⟩
  rw [statusWord_state, statusWord_errCode]
  refine ⟨?_, ?_, ?_, ?_, ?_, ?_, ?_, ?_, ?_⟩ <;> (intro h; rw [h]; rfl)

/-! ### IN_LEN and CAP -/

/-- Outside BUSY a write to IN_LEN keeps the low 17 bits (R26, R54). -/
theorem hostAccess_write_inLen (v : Word) (hb : s.status.state ≠ .busy) :
    hostAccess (.write4 inLenOffset v) s = { s with inLen := v.extractLsb' 0 17, response := some .ok } := by
  have ha : inLenOffset ≠ cmdOffset := by decide
  have hw : widthOk inLenOffset 4 = true := by decide
  simp only [hostAccess, accessAddr, accessWidth, hw, if_true, regWrite, if_neg ha, hb, ne_eq, not_false_eq_true, and_self]

/-- A read of IN_LEN gives its 17 bits (R54). -/
theorem hostAccess_read_inLen (s : State) :
    hostAccess (.read4 inLenOffset) s = { s with response := some (.data32 (s.inLen.setWidth 32)) } := by
  have ha : inLenOffset ≠ statusOffset := by decide
  have hw : widthOk inLenOffset 4 = true := by decide
  simp only [hostAccess, accessAddr, accessWidth, hw, if_true, regRead, if_neg ha]

/-- Settles O12: the write cuts the word to 17 bits, and the read extends them with 0. -/
theorem inLenKeepsSeventeenBits : Obligations.InLenKeepsSeventeenBits := by
  intro s v hb
  have hbits : (v.extractLsb' 0 17).setWidth 32 = BitVec.ofNat 32 (v.toNat % 2 ^ 17) := by
    apply BitVec.eq_of_toNat_eq
    simp
  change (hostAccess (.read4 inLenOffset) (hostAccess (.write4 inLenOffset v) s)).response = _
  rw [hostAccess_write_inLen v hb, hostAccess_read_inLen, hbits]

/-- Settles O40: IN is in a core step's frame, OUT in an access's. -/
theorem inputAndOutputAreSeparate : Obligations.InputAndOutputAreSeparate := by
  refine ⟨fun s t h => ?_, fun s a => ?_⟩
  · obtain ⟨⟨hin, -⟩, -⟩ := coreStep_frame h
    exact hin
  · obtain ⟨hout, -⟩ := hostAccess_fixed a s
    exact hout

/-- No event changes CAP (R29, R230). -/
theorem hostEvent_cap (e : Event) (s : State) : (hostEvent e s).cap = s.cap := by
  cases e with
  | access a => obtain ⟨-, hcap, -⟩ := hostAccess_fixed a s; exact hcap
  | reset => rfl
  | pause => rfl

/-- No run of core steps changes CAP. -/
theorem coreRun_cap {k : Nat} (h : coreRun k s = .next t) : t.cap = s.cap := by
  obtain ⟨⟨-, -, hcap, -⟩, -⟩ := coreRun_frame h
  exact hcap

/-- Settles O46: neither the event of a step nor its core steps change CAP. -/
theorem capIsConstant : Obligations.CapIsConstant := by
  intro s t h
  rcases step_cases h with ⟨-, h⟩ | ⟨u, rest, -, h⟩
  · obtain ⟨⟨-, -, hcap, -⟩, -⟩ := coreStep_frame h
    exact hcap
  · exact (coreRun_cap h).trans (hostEvent_cap _ _)

/-! ### The tables -/

/-- HEX_LUT in closed form (R30). -/
theorem hexLut_closed_form :
    ∀ k : Nibble, hexLut k = if k ≤ 9#4 then 0x30#8 + k.setWidth 8 else 0x41#8 + (k.setWidth 8 - 10#8) := by decide

/-- B32_LUT in closed form (R32). -/
theorem b32Lut_closed_form :
    ∀ k : Symbol, b32Lut k = if k ≤ 25#5 then 0x41#8 + k.setWidth 8 else 0x32#8 + (k.setWidth 8 - 26#8) := by decide

/-- DEC_LUT on the digits (R31). -/
theorem decLut_digit {c : Byte} (h : 0x30#8 ≤ c ∧ c ≤ 0x39#8) : decLut c = some ((c - 0x30#8).setWidth 4) := by
  rw [decLut, if_pos h]

/-- DEC_LUT on the letters A to F (R31). -/
theorem decLut_upper {c : Byte} (h : 0x41#8 ≤ c ∧ c ≤ 0x46#8) :
    decLut c = some ((c - 0x41#8 + 10#8).setWidth 4) := by
  rw [decLut, if_neg (by bv_omega), if_pos h]

/-- DEC_LUT on the letters a to f (R31). -/
theorem decLut_lower {c : Byte} (h : 0x61#8 ≤ c ∧ c ≤ 0x66#8) :
    decLut c = some ((c - 0x61#8 + 10#8).setWidth 4) := by
  rw [decLut, if_neg (by bv_omega), if_neg (by bv_omega), if_pos h]

/-- DEC_LUT is invalid below, between and above its three ranges (R31). -/
theorem decLut_invalid {c : Byte}
    (h : c ≤ 0x2F#8 ∨ (0x3A#8 ≤ c ∧ c ≤ 0x40#8) ∨ (0x47#8 ≤ c ∧ c ≤ 0x60#8) ∨ 0x67#8 ≤ c) : decLut c = none := by
  rw [decLut, if_neg (by bv_omega), if_neg (by bv_omega), if_neg (by bv_omega)]

/-- The gate-level form of DEC_LUT: bit 5, the letter's case, is masked out (R31). -/
theorem decLut_gate_form : ∀ c : Byte, decLut c =
    if 0x30#8 ≤ c ∧ c ≤ 0x39#8 then some (c.setWidth 4 &&& 0xF#4)
    else if 0x41#8 ≤ c &&& 0xDF#8 ∧ c &&& 0xDF#8 ≤ 0x46#8 then some (((c &&& 0x07#8) + 9#8).setWidth 4)
    else none := by decide

/-- Settles O49: the closed forms by their tables, DEC_LUT by its branches, the gate-level form byte by byte. -/
theorem lookUpTables : Obligations.LookUpTables :=
  ⟨hexLut_closed_form, b32Lut_closed_form,
    fun _ => ⟨decLut_digit, decLut_upper, decLut_lower, decLut_invalid⟩, decLut_gate_form⟩

end Sys2Proof.Machine

/-! The host's port: what an access of the right width does in each region, what one of a wrong width does, and which accesses
repeat (O4, O5, O7, O8, O9). -/

namespace Sys2Proof.Machine

variable {s : State} {a : Offset}

/-! ### Width and alignment -/

/-- The width check (R53), region by region. -/
theorem widthOk_iff (a : Offset) (n : Nat) :
    widthOk a n = true ↔ (a.toNat ≤ 0x0FFFF ∧ n = 4 ∧ a.toNat % 4 = 0) ∨ (0x10000 ≤ a.toNat ∧ n = 1) := by
  unfold widthOk
  split
  · simp; omega
  · simp; omega

/-- An access of a wrong width or alignment is answered BUS_ERROR and changes nothing else (R53, R206). -/
theorem hostAccess_of_not_widthOk {a : Access} (s : State) (h : ¬ widthOk (accessAddr a) (accessWidth a) = true) :
    hostAccess a s = { s with response := some .busError } := by
  unfold hostAccess
  rw [if_neg h]

/-- An aligned 4-byte read of a register (R54). -/
theorem hostAccess_read4 (s : State) (hlo : a.toNat ≤ 0x0FFFF) (h4 : a.toNat % 4 = 0) :
    hostAccess (.read4 a) s = { s with response := some (.data32 (regRead a s)) } :=
  if_pos ((widthOk_iff _ _).mpr (.inl ⟨hlo, rfl, h4⟩))

/-- An aligned 4-byte write to a register (R54). -/
theorem hostAccess_write4 (s : State) (v : Word) (hlo : a.toNat ≤ 0x0FFFF) (h4 : a.toNat % 4 = 0) :
    hostAccess (.write4 a v) s = { regWrite a v s with response := some .ok } :=
  if_pos ((widthOk_iff _ _).mpr (.inl ⟨hlo, rfl, h4⟩))

/-- A 1-byte read of a buffer (R55, R56). -/
theorem hostAccess_read1 (s : State) (hhi : 0x10000 ≤ a.toNat) : hostAccess (.read1 a) s = bufRead a s :=
  if_pos ((widthOk_iff _ _).mpr (.inr ⟨hhi, rfl⟩))

/-- A 1-byte write to a buffer (R55, R56). -/
theorem hostAccess_write1 (s : State) (v : Byte) (hhi : 0x10000 ≤ a.toNat) :
    hostAccess (.write1 a v) s = { bufWrite a v s with response := some .ok } :=
  if_pos ((widthOk_iff _ _).mpr (.inr ⟨hhi, rfl⟩))

/-- Whatever a buffer read gives, it gives data (R52). -/
theorem bufRead_response (a : Offset) (s : State) : ∃ b, (bufRead a s).response = some (.data8 b) := by
  unfold bufRead
  dsimp only
  split
  · exact ⟨_, rfl⟩
  · split
    · split
      · exact ⟨_, rfl⟩
      · exact ⟨_, rfl⟩
    · exact ⟨_, rfl⟩

/-- An access of the right width and alignment is never answered BUS_ERROR (R53). -/
theorem hostAccess_response_of_widthOk {a : Access} (h : widthOk (accessAddr a) (accessWidth a) = true) :
    (hostAccess a s).response ≠ some .busError := by
  unfold hostAccess
  rw [if_pos h]
  cases a with
  | read4 a => simp
  | read1 a =>
    obtain ⟨b, hb⟩ := bufRead_response a s
    simp [hb]
  | write4 a v => simp
  | write1 a v => simp

/-- Settles O4: the conditions of R53 are the failing of the width check, and only that answers BUS_ERROR. -/
theorem wrongWidthIsBusError : Obligations.WrongWidthIsBusError := by
  refine ⟨fun s a => ⟨fun h => hostAccess_of_not_widthOk s ?_, fun h => ?_⟩, rfl⟩
  · rw [widthOk_iff]; omega
  · have hw : ¬ widthOk (accessAddr a) (accessWidth a) = true := fun hw => hostAccess_response_of_widthOk hw h
    rw [widthOk_iff] at hw
    omega

/-! ### Registers -/

/-- A reserved offset is none of the registers' offsets (R22). -/
theorem ne_of_reserved {b : Offset} (h : 0x00014 ≤ a.toNat) (hb : b.toNat < 0x00014) : a ≠ b := by
  rintro rfl
  omega

/-- A reserved offset reads 0 (R54, D4). -/
theorem regRead_reserved (s : State) (h : 0x00014 ≤ a.toNat) : regRead a s = 0#32 := by
  rw [regRead, if_neg (ne_of_reserved h (by decide)), if_neg (ne_of_reserved h (by decide)),
    if_neg (ne_of_reserved h (by decide)), if_neg (ne_of_reserved h (by decide))]

/-- A write anywhere but to CMD and IN_LEN is ignored (R54, D37). -/
theorem regWrite_ignored (s : State) (v : Word) (hc : a ≠ cmdOffset) (hl : a ≠ inLenOffset) : regWrite a v s = s := by
  rw [regWrite, if_neg hc, if_neg fun h => hl h.1]

/-- While BUSY a write to IN_LEN is ignored (R26, R104). -/
theorem hostAccess_write_inLen_busy (v : Word) (hb : s.status.state = .busy) :
    hostAccess (.write4 inLenOffset v) s = { s with response := some .ok } := by
  have hc : inLenOffset ≠ cmdOffset := by decide
  rw [hostAccess_write4 s v (by decide) (by decide), regWrite, if_neg hc, if_neg fun h => h.2 hb]

/-- Settles O5: each offset by its rule, which at a register's own offset `regRead` and `regWrite` compute; the writes that
R54 ignores are those that name neither CMD nor IN_LEN. -/
theorem registerRegionAccess : Obligations.RegisterRegionAccess := by
  intro s a v hlo h4
  have hread := hostAccess_read4 s hlo h4
  have hignored (hc : a ≠ cmdOffset) (hl : a ≠ inLenOffset) :
      hostAccess (.write4 a v) s = { s with response := some .ok } := by
    rw [hostAccess_write4 s v hlo h4, regWrite_ignored s v hc hl]
  refine ⟨?cmd, ?status, ?inLen, ?outLen, ?cap, ?reserved⟩
  case cmd =>
    rintro rfl
    exact ⟨hread, hostAccess_write4 s v hlo h4⟩
  case status =>
    rintro rfl
    exact ⟨hread, hignored (by decide) (by decide)⟩
  case inLen =>
    rintro rfl
    exact ⟨hread, hostAccess_write_inLen v, hostAccess_write_inLen_busy v⟩
  case outLen =>
    rintro rfl
    exact ⟨hread, hignored (by decide) (by decide)⟩
  case cap =>
    rintro rfl
    exact ⟨hread, hignored (by decide) (by decide)⟩
  case reserved =>
    intro h
    refine ⟨?_, hignored (ne_of_reserved h (by decide)) (ne_of_reserved h (by decide))⟩
    rw [hread, regRead_reserved s h]

/-! ### The input buffer -/

theorem inValue_of_written {i : Nat} {b : Byte} (h : Memory.read s.inBuf i = some b) : inValue s i = b := by
  rw [inValue, h, Option.getD_some]

theorem inValue_of_unwritten {i : Nat} (h : Memory.read s.inBuf i = none) : inValue s i = Config.inDraw s.epoch i := by
  rw [inValue, h, Option.getD_none]

/-- The offset of IN[i], or of the tail, and its index (R51). -/
theorem in_index {i : Nat} (hi : i < 0x10000) (ha : a.toNat = 0x10000 + i) :
    a.toNat < outBase ∧ a.toNat - inBase = i := by
  rw [ha, inBase, outBase]
  omega

/-- A read of IN[i], or of the tail above IN_CAP (R55). -/
theorem hostAccess_read_in {i : Nat} (s : State) (hi : i < 0x10000) (ha : a.toNat = 0x10000 + i) :
    hostAccess (.read1 a) s =
      { s with response := some (.data8 (if i < s.cap.toNat then inValue s i else 0#8)) } := by
  obtain ⟨hlt, hsub⟩ := in_index hi ha
  rw [hostAccess_read1 s (by omega), bufRead, if_pos hlt, hsub]

/-- A write to IN[i] below IN_CAP outside BUSY (R55). -/
theorem hostAccess_write_in {i : Nat} (v : Byte) (hi : i < 0x10000) (ha : a.toNat = 0x10000 + i)
    (hc : i < s.cap.toNat) (hb : s.status.state ≠ .busy) :
    hostAccess (.write1 a v) s = { s with inBuf := Memory.write s.inBuf i v, response := some .ok } := by
  obtain ⟨hlt, hsub⟩ := in_index hi ha
  rw [hostAccess_write1 s v (by omega), bufWrite, hsub, if_pos ⟨hlt, hc, hb⟩]

/-- A buffer write outside IN, above IN_CAP or while BUSY is ignored (R55, R56, R104). -/
theorem hostAccess_write1_ignored (v : Byte) (ha : 0x10000 ≤ a.toNat)
    (h : outBase ≤ a.toNat ∨ s.cap.toNat ≤ a.toNat - inBase ∨ s.status.state = .busy) :
    hostAccess (.write1 a v) s = { s with response := some .ok } := by
  have hno : ¬ (a.toNat < outBase ∧ a.toNat - inBase < s.cap.toNat ∧ s.status.state ≠ .busy) := by
    rintro ⟨hlt, hc, hb⟩
    rcases h with h | h | h
    · omega
    · omega
    · exact hb h
  rw [hostAccess_write1 s v ha, bufWrite, if_neg hno]

/-- Settles O7: reads by the value of IN[i], writes by the laws of a buffer. -/
theorem inputBufferAccess : Obligations.InputBufferAccess := by
  intro s a i v hi ha
  have hread := hostAccess_read_in s hi ha
  refine ⟨fun hc b hb => ?_, fun hc hn => ?_, fun hc => ?_, fun hc hb => ?_, fun h => ?_⟩
  · rw [hread, if_pos hc, inValue_of_written hb]
  · rw [hread, if_pos hc, inValue_of_unwritten hn]
  · rw [hread, if_neg (by omega)]
  · exact ⟨_, hostAccess_write_in v hi ha hc hb, Memory.read_write_same _ _ _,
      fun k hk => Memory.read_write_other _ _ (Ne.symm hk)⟩
  · obtain ⟨-, hsub⟩ := in_index hi ha
    exact hostAccess_write1_ignored v (by omega) (.inr (by rwa [hsub]))

/-! ### The output buffer -/

/-- The offset of OUT[j], or of the tail, and its index (R51). -/
theorem out_index {j : Nat} (ha : a.toNat = 0x20000 + j) : ¬ a.toNat < outBase ∧ a.toNat - outBase = j := by
  rw [ha, outBase]
  omega

/-- A read of OUT[j] that has a defined value (R40, R56). -/
theorem hostAccess_read_out_defined {j : Nat} {b : Byte} (ha : a.toNat = 0x20000 + j) (hj : j < outCap s)
    (hd : outDefined s j = some b) : hostAccess (.read1 a) s = { s with response := some (.data8 b) } := by
  obtain ⟨hge, hsub⟩ := out_index ha
  rw [hostAccess_read1 s (by omega)]
  simp only [bufRead, if_neg hge, hsub, if_pos hj, hd]

/-- A read of OUT[j] without a defined value is a fresh draw (R40, R56). -/
theorem hostAccess_read_out_undefined {j : Nat} (ha : a.toNat = 0x20000 + j) (hj : j < outCap s)
    (hd : outDefined s j = none) :
    hostAccess (.read1 a) s =
      { s with response := some (.data8 (Config.outDraw s.draws)), draws := s.draws + 1 } := by
  obtain ⟨hge, hsub⟩ := out_index ha
  rw [hostAccess_read1 s (by omega)]
  simp only [bufRead, if_neg hge, hsub, if_pos hj, hd]

/-- A read of the tail above OUT_CAP (R56). -/
theorem hostAccess_read_outTail {j : Nat} (ha : a.toNat = 0x20000 + j) (hj : outCap s ≤ j) :
    hostAccess (.read1 a) s = { s with response := some (.data8 0#8) } := by
  obtain ⟨hge, hsub⟩ := out_index ha
  rw [hostAccess_read1 s (by omega), bufRead, if_neg hge, hsub, if_neg (by omega)]

/-- In state DONE the bytes below OUT_LEN are defined (R40). -/
theorem outDefined_of_done {j : Nat} (hd : s.status.state = .done) (hj : j < s.outLen.toNat) :
    outDefined s j = Memory.read s.outBuf j := by
  rw [outDefined, if_pos ⟨hd, hj⟩]

/-- No other byte of OUT is defined (R40). -/
theorem outDefined_eq_none {j : Nat} (h : s.status.state ≠ .done ∨ s.outLen.toNat ≤ j) : outDefined s j = none := by
  have hno : ¬ (s.status.state = .done ∧ j < s.outLen.toNat) := by
    rintro ⟨hd, hj⟩
    rcases h with h | h
    · exact h hd
    · omega
  rw [outDefined, if_neg hno]

/-- Settles O8: a read goes by whether the byte is defined, and OUT is out of reach of every write. -/
theorem outputBufferAccess : Obligations.OutputBufferAccess := by
  intro s a j v hj ha
  refine ⟨fun hc hd hlt hstored => ?_, fun hc hn => ?_, hostAccess_read_outTail ha, ?_⟩
  · obtain ⟨b, hb⟩ := Option.isSome_iff_exists.mp (hstored j hlt)
    exact ⟨b, hb, hostAccess_read_out_defined ha hc (by rw [outDefined_of_done hd hlt, hb])⟩
  · exact hostAccess_read_out_undefined ha hc (outDefined_eq_none hn)
  · exact hostAccess_write1_ignored v (by omega) (.inl (not_lt.mp (out_index ha).1))

/-! ### Reads and repeated accesses -/

/-- A 4-byte read does nothing but answer (R61). -/
theorem hostAccess_read4_eq (a : Offset) (s : State) : ∃ r, hostAccess (.read4 a) s = { s with response := r } := by
  by_cases hw : widthOk a 4 = true
  · exact ⟨_, if_pos hw⟩
  · exact ⟨_, hostAccess_of_not_widthOk s hw⟩

/-- A 1-byte read does nothing but answer, or it reads an OUT byte without a defined value and uses up a draw (R40, R61). -/
theorem hostAccess_read1_cases (a : Offset) (s : State) :
    (∃ r, hostAccess (.read1 a) s = { s with response := r }) ∨
    (outBase ≤ a.toNat ∧ outDefined s (a.toNat - outBase) = none ∧
      ∃ r, hostAccess (.read1 a) s = { s with response := r, draws := s.draws + 1 }) := by
  by_cases hlo : a.toNat < 0x10000
  · exact .inl ⟨_, hostAccess_of_not_widthOk s (by rw [widthOk_iff, accessAddr, accessWidth]; omega)⟩
  by_cases hin : a.toNat < outBase
  · rw [outBase] at hin
    exact .inl ⟨_, hostAccess_read_in (i := a.toNat - 0x10000) s (by omega) (by omega)⟩
  have ha : a.toNat = 0x20000 + (a.toNat - outBase) := by rw [outBase] at hin ⊢; omega
  by_cases hj : a.toNat - outBase < outCap s
  · cases hd : outDefined s (a.toNat - outBase) with
    | some b => exact .inl ⟨_, hostAccess_read_out_defined ha hj hd⟩
    | none => exact .inr ⟨by omega, rfl, _, hostAccess_read_out_undefined ha hj hd⟩
  · exact .inl ⟨_, hostAccess_read_outTail ha (by omega)⟩

/-- A 1-byte write does nothing but answer, or it stores its byte in IN (R55). -/
theorem hostAccess_write1_cases (a : Offset) (v : Byte) (s : State) :
    (∃ r, hostAccess (.write1 a v) s = { s with response := r }) ∨
    ∃ i, i < 0x10000 ∧ a.toNat = 0x10000 + i ∧ i < s.cap.toNat ∧ s.status.state ≠ .busy := by
  by_cases hlo : a.toNat < 0x10000
  · exact .inl ⟨_, hostAccess_of_not_widthOk s (by rw [widthOk_iff, accessAddr, accessWidth]; omega)⟩
  by_cases h : outBase ≤ a.toNat ∨ s.cap.toNat ≤ a.toNat - inBase ∨ s.status.state = .busy
  · exact .inl ⟨_, hostAccess_write1_ignored v (by omega) h⟩
  · push Not at h
    obtain ⟨hin, hc, hb⟩ := h
    rw [outBase] at hin
    exact .inr ⟨a.toNat - inBase, by rw [inBase]; omega, by rw [inBase]; omega, hc, hb⟩

/-- No buffer read looks at the response to the access before it (R52). -/
theorem bufRead_set_response (a : Offset) (s : State) (r : Option Response) :
    bufRead a { s with response := r } = bufRead a s := by
  have hin (i : Nat) : inValue { s with response := r } i = inValue s i := rfl
  have hout (j : Nat) : outDefined { s with response := r } j = outDefined s j := rfl
  have hcap : outCap { s with response := r } = outCap s := rfl
  simp only [bufRead, hin, hout, hcap]

/-- No access looks at the response to the one before it (R52). -/
theorem hostAccess_set_response (a : Access) (s : State) (r : Option Response) :
    hostAccess a { s with response := r } = hostAccess a s := by
  unfold hostAccess
  split
  · cases a with
    | read4 a => rfl
    | read1 a => exact bufRead_set_response a s r
    | write4 a v =>
      simp only [regWrite, request]
      split
      · split <;> rfl
      · split <;> rfl
    | write1 a v =>
      simp only [bufWrite]
      split <;> rfl
  · rfl

/-- An access that does nothing but answer repeats. -/
theorem hostAccess_again {a : Access} {r : Option Response} (h : hostAccess a s = { s with response := r }) :
    hostAccess a (hostAccess a s) = hostAccess a s := by
  rw [h, hostAccess_set_response, h]

/-- Settles O9: what does nothing but answer repeats; the writes that do more store the same value again. -/
theorem readsRepeatAndBufferWritesAreIdempotent : Obligations.ReadsRepeatAndBufferWritesAreIdempotent := by
  refine ⟨fun s a => ?reads, fun s a v => ?write1, fun s v => ?writeInLen⟩
  case reads =>
    obtain ⟨r4, h4⟩ := hostAccess_read4_eq a s
    rcases hostAccess_read1_cases a s with ⟨r, h1⟩ | ⟨hout, hd, r, h1⟩
    · exact ⟨by simp [h1, SameBlock], by simp [h4, SameBlock], hostAccess_again h4, fun _ => hostAccess_again h1,
        fun hne => absurd (by rw [h1]) hne⟩
    · exact ⟨by simp [h1, SameBlock], by simp [h4, SameBlock], hostAccess_again h4, fun heq => by simp [h1] at heq,
        fun _ => ⟨hout, hd⟩⟩
  case write1 =>
    rcases hostAccess_write1_cases a v s with ⟨r, h⟩ | ⟨i, hi, ha, hc, hb⟩
    · exact hostAccess_again h
    · rw [hostAccess_write_in v hi ha hc hb, hostAccess_write_in v hi ha (by exact hc) (by exact hb),
        Memory.write_write_same]
  case writeInLen =>
    change hostAccess (.write4 inLenOffset v) (hostAccess (.write4 inLenOffset v) s) = hostAccess (.write4 inLenOffset v) s
    by_cases hb : s.status.state = .busy
    · exact hostAccess_again (hostAccess_write_inLen_busy v hb)
    · rw [hostAccess_write_inLen v hb, hostAccess_write_inLen v (by exact hb)]

end Sys2Proof.Machine

/-! Steps: which event and which core steps a step is, where it can stop, and what it leaves alone (O13, O14, O33, O41,
O44). -/

namespace Sys2Proof.Machine

variable {s t : State}

/-! ### What a step is -/

/-- The next event and the core steps after it (R64). -/
theorem step_of_agenda {u : Turn} {rest : List Turn} (h : s.agenda = u :: rest) :
    step s = settle (hostEvent u.event { s with agenda := rest, gap := u.gap }) := by
  rw [step, h]
  exact takeTurn_eq _ _

/-- With no event to come a step is one core step (R107). -/
theorem step_of_no_agenda (h : s.agenda = []) : step s = coreStep s := by
  rw [step, h]

/-- A CMD write of a legal word is its command (R101). -/
theorem step_of_command {w : Word} {g : Nat} {rest : List Turn} {i : Instr}
    (ha : s.agenda = { event := .access (.write4 cmdOffset w), gap := g } :: rest) (hd : decode w = .ok i) :
    step s = exec i { s with agenda := rest, gap := g, response := some .ok } := by
  have hf : fetchCommand (.access (.write4 cmdOffset w)) = some w := rfl
  simp only [step, ha, takeTurn, hf, commandTurn, hd]

/-- Settles O13: the second part is the first for the turn that `withFetchWord` places. -/
theorem stepRunsTheDecodedCommand : Obligations.StepRunsTheDecodedCommand :=
  ⟨fun _ _ _ _ _ => step_of_command, fun s nbits w _ => step_of_command (s := s.withFetchWord nbits w) rfl⟩

/-- The core steps after an event, with their number taken out of the state before it. -/
theorem settle_hostEvent (e : Event) (s : State) (g : Nat) :
    settle (hostEvent e { s with gap := g }) = coreRun g (hostEvent e { s with gap := 0 }) := by
  rw [settle, hostEvent_gap, hostEvent_gap_field]

/-- Settles O14: a turn is its event and its core steps, and outside BUSY there are no core steps. -/
theorem stepTakesTheNextEventThenTheCore : Obligations.StepTakesTheNextEventThenTheCore := by
  refine ⟨fun s e g rest ha => ?_, fun s => step_of_no_agenda, fun s k hb =>
    ⟨coreStep_of_not_busy hb, coreRun_of_not_busy k hb⟩⟩
  rw [step_of_agenda ha]
  exact settle_hostEvent e { s with agenda := rest } g

/-! ### What a step leaves alone -/

/-- While BUSY only a reset touches IN, IN_LEN and the reset count (R104, R230). -/
theorem hostEvent_keeps_input {e : Event} (hb : s.status.state = .busy) (he : e ≠ .reset) :
    (hostEvent e s).inBuf = s.inBuf ∧ (hostEvent e s).inLen = s.inLen ∧ (hostEvent e s).epoch = s.epoch := by
  cases e with
  | reset => exact absurd rfl he
  | pause => exact ⟨rfl, rfl, rfl⟩
  | access a =>
    obtain ⟨-, -, hin, hlen⟩ := hostAccess_busy a hb
    obtain ⟨-, -, hepoch, -, -⟩ := hostAccess_fixed a s
    exact ⟨hin, hlen, hepoch⟩

/-- Settles O41: neither the event of a step nor its core steps touch the input. -/
theorem inputIsFrozenWhileBusy : Obligations.InputIsFrozenWhileBusy := by
  intro s t hb hst hev
  rcases step_cases hst with ⟨-, hst⟩ | ⟨u, rest, ha, hst⟩
  · obtain ⟨⟨hin, hlen, -, -, -, -, hepoch⟩, -⟩ := coreStep_frame hst
    exact ⟨hin, hlen, hepoch⟩
  · have hu : u.event ≠ .reset := hev u (by simp [ha])
    obtain ⟨hin, hlen, hepoch⟩ := hostEvent_keeps_input (s := { s with agenda := rest, gap := u.gap }) hb hu
    obtain ⟨⟨hin', hlen', -, -, -, -, hepoch'⟩, -⟩ := coreRun_frame hst
    exact ⟨hin'.trans hin, hlen'.trans hlen, hepoch'.trans hepoch⟩

/-- Only a reset and a CMD write touch STATUS, OUT_LEN and OUT (R41, R65). -/
theorem hostEvent_keeps_result {e : Event} (s : State) (hr : e ≠ .reset) (hc : ∀ w, e ≠ .access (.write4 cmdOffset w)) :
    (hostEvent e s).status = s.status ∧ (hostEvent e s).outLen = s.outLen ∧ (hostEvent e s).outBuf = s.outBuf := by
  cases e with
  | reset => exact absurd rfl hr
  | pause => exact ⟨rfl, rfl, rfl⟩
  | access a =>
    obtain ⟨hs, hl⟩ := hostAccess_flags (s := s) fun w (ha : a = _) => hc w (by rw [ha])
    obtain ⟨hout, -⟩ := hostAccess_fixed a s
    exact ⟨hs, hl, hout⟩

/-- Outside BUSY no core step falls after an event (R100). -/
theorem settle_of_not_busy (hb : s.status.state ≠ .busy) : settle s = .next { s with gap := 0 } :=
  coreRun_of_not_busy (s := { s with gap := 0 }) s.gap hb

/-- The defined bytes of OUT depend on STATUS, OUT_LEN and OUT (R40). -/
theorem outDefined_congr (hs : t.status = s.status) (hl : t.outLen = s.outLen) (ho : t.outBuf = s.outBuf) (j : Nat) :
    outDefined t j = outDefined s j := by
  rw [outDefined, outDefined, hs, hl, ho]

/-- Settles O44: the event leaves the result alone, and outside BUSY no core step follows it. -/
theorem resultStaysUntilTheNextCommand : Obligations.ResultStaysUntilTheNextCommand := by
  intro s t hend hst hev
  have hb : s.status.state ≠ .busy := by rcases hend with h | h <;> simp [h]
  rcases step_cases hst with ⟨-, hst⟩ | ⟨u, rest, ha, hst⟩
  · rw [coreStep_of_not_busy hb] at hst
    cases hst
    exact ⟨rfl, rfl, fun _ => rfl⟩
  · obtain ⟨hr, hc⟩ := hev u (by simp [ha])
    obtain ⟨hs, hl, ho⟩ := hostEvent_keeps_result { s with agenda := rest, gap := u.gap } hr hc
    rw [settle_of_not_busy (by rwa [hs])] at hst
    cases hst
    exact ⟨hs, hl, outDefined_congr hs hl ho⟩

/-! ### Where a step can stop -/

/-- The fault of a consumed input byte that exists and that the host has not written (U6, D31). -/
def StopsOnUnwritten (s : State) (f : Fault) : Prop :=
  ∃ i, f = .unwrittenInput i ∧ i < s.cap.toNat ∧ i < s.inLen.toNat ∧ Memory.read s.inBuf i = none

/-- Where a block stops, a block with the same IN, IN_LEN and CAP stops. -/
theorem StopsOnUnwritten.of_sameInput {f : Fault} (h : StopsOnUnwritten t f) (hin : t.inBuf = s.inBuf)
    (hlen : t.inLen = s.inLen) (hcap : t.cap = s.cap) : StopsOnUnwritten s f := by
  rwa [StopsOnUnwritten, hin, hlen, hcap] at h

/-- Below N, reading IN[IDX] faults only when that byte is unwritten, else what comes after the read faults (R70). -/
theorem withInput_idx_fault {k : Byte → Result} {f : Fault} (busy : BusyInv s) (hr : RunInv s)
    (hi : s.idx.toNat < s.n.toNat) (h : withInput s s.idx.toNat k = .fault f) :
    StopsOnUnwritten s f ∨ ∃ b, k b = .fault f := by
  have hfit := BitVec.le_def.mp hr.fits
  rcases withInput_fault h with ⟨hc, hn, rfl⟩ | ⟨hc, -⟩ | ⟨b, -, -, h⟩
  · exact .inl ⟨_, rfl, hc, by rwa [← busy.lenLatched], hn⟩
  · omega
  · exact .inr ⟨b, h⟩

/-- hex_encoder has room for both characters of a byte (R125). -/
theorem HexEncoderInv.room (h : HexEncoderInv s) (hfit : s.n ≤ s.cap) (hlt : s.idx < s.n) :
    s.outPtr.toNat < outCap s ∧ (s.outPtr + 1#18).toNat < outCap s := by
  obtain ⟨-, hptr⟩ := h
  have hfit := BitVec.le_def.mp hfit
  have hlt := BitVec.lt_def.mp hlt
  have h1 : s.outPtr.toNat < outCap s := by rw [outCap]; omega
  refine ⟨h1, ?_⟩
  rw [outPtr_succ h1, outCap]
  omega

/-- hex_decoder has room for the byte of a pair (R147). -/
theorem HexDecoderInv.room (h : HexDecoderInv s) (hfit : s.n ≤ s.cap) (hlt : s.idx.toNat < consumed s.n.toNat) :
    s.outPtr.toNat < outCap s := by
  obtain ⟨-, hptr, -⟩ := h
  have hfit := BitVec.le_def.mp hfit
  have := consumed_le s.n.toNat
  rw [outCap]
  omega

/-- base32_encoder has room for each symbol of a loaded group (R167). -/
theorem Base32EncoderInv.room (h : Base32EncoderInv s) (hfit : s.n ≤ s.cap) (h5 : s.n.toNat % 5 = 0)
    (hl : s.loads = 5#3) : s.outPtr.toNat < outCap s := by
  obtain ⟨hle, -, -, hcut⟩ := h
  obtain ⟨-, hsyms, -, hptr⟩ := hcut h5 (by simp [hl])
  have hle := BitVec.le_def.mp hle
  have hfit := BitVec.le_def.mp hfit
  have hsyms : s.syms.toNat < 8 := BitVec.lt_def.mp hsyms
  rw [outCap]
  omega

/-- A step of hex_encoder stops only at its input byte (R124). -/
theorem hexEncoderStep_fault {f : Fault} (busy : BusyInv s) (hr : RunInv s) (ho : s.curOp = 0#2)
    (h : hexEncoderStep s = .fault f) : StopsOnUnwritten s f := by
  unfold hexEncoderStep at h
  split at h
  · rename_i hlt
    obtain ⟨h1, h2⟩ := (hr.hexEnc ho).room hr.fits hlt
    rcases withInput_idx_fault busy hr (BitVec.lt_def.mp hlt) h with hstop | ⟨b, h⟩
    · exact hstop
    · rw [emit_of_room h1, emit_of_room h2] at h
      cases h
  · cases h

/-- A step of hex_decoder stops only at its input byte (R146). -/
theorem hexDecoderStep_fault {f : Fault} (busy : BusyInv s) (hr : RunInv s) (ho : s.curOp = 1#2)
    (h : hexDecoderStep s = .fault f) : StopsOnUnwritten s f := by
  unfold hexDecoderStep at h
  split at h
  · rename_i hlt
    have hroom := (hr.hexDec ho).room hr.fits hlt
    rcases withInput_idx_fault busy hr (hlt.trans_le (consumed_le _)) h with hstop | ⟨c, h⟩
    · exact hstop
    · split at h
      · cases h
      · rw [hexDecoderTake] at h
        split at h
        · rcases emit_fault h with hfull | h
          · exact absurd hroom (not_lt.mpr hfull)
          · cases h
        · cases h
  · cases h

/-- A step of base32_encoder stops only at its input byte (R165, R166). -/
theorem base32EncoderStep_fault {f : Fault} (busy : BusyInv s) (hr : RunInv s) (ho : s.curOp = 2#2)
    (h : base32EncoderStep s = .fault f) : StopsOnUnwritten s f := by
  unfold base32EncoderStep at h
  split at h
  · cases h
  rename_i h5
  split at h
  · rename_i hl
    rcases withInput_idx_fault busy hr (BitVec.lt_def.mp hl.2) h with hstop | ⟨b, h⟩
    · exact hstop
    · cases h
  · unfold base32Extract at h
    split at h
    · rename_i hl5
      rw [emit_of_room ((hr.b32Enc ho).room hr.fits (not_not.mp h5) hl5)] at h
      cases h
    · cases h

/-- A core step stops only at an unwritten input byte: the units have room, and CUR_OP = 3 does not get past CHECK (R105). -/
theorem Inv.coreStep_fault {f : Fault} (h : Inv s) (hst : coreStep s = .fault f) : StopsOnUnwritten s f := by
  by_cases hb : s.status.state = .busy
  · have busy := h.busy hb
    cases hp : s.phase with
    | check => rw [coreStep_check hb hp] at hst; cases hst
    | run =>
      have hr := busy.running hp
      rw [coreStep_run hb hp] at hst
      unfold runStep at hst
      split_ifs at hst with h0 h1 h2
      · exact hexEncoderStep_fault busy hr h0 hst
      · exact hexDecoderStep_fault busy hr h1 hst
      · exact base32EncoderStep_fault busy hr h2 hst
      · have hill := busy.reserved (by bv_omega)
        rw [hr.legal] at hill
        cases hill
  · rw [coreStep_of_not_busy hb] at hst
    cases hst

/-- A run of core steps stops only there: no core step touches IN, IN_LEN or CAP. -/
theorem Inv.coreRun_fault {k : Nat} {f : Fault} (h : Inv s) (hst : coreRun k s = .fault f) : StopsOnUnwritten s f := by
  induction k generalizing s with
  | zero => cases hst
  | succ k ih =>
    rw [coreRun_succ] at hst
    rcases andThen_eq_fault hst with hst | ⟨u, hu, hst⟩
    · exact h.coreStep_fault hst
    · obtain ⟨⟨hin, hlen, hcap, -⟩, -⟩ := coreStep_frame hu
      exact (ih (h.after_coreStep hu) hst).of_sameInput hin hlen hcap

/-- An event after which a command runs has left IN and IN_LEN alone (R104). -/
theorem hostEvent_input_of_busy {e : Event} (hb : (hostEvent e s).status.state = .busy) :
    (hostEvent e s).inBuf = s.inBuf ∧ (hostEvent e s).inLen = s.inLen := by
  cases e with
  | reset => cases hb
  | pause => exact ⟨rfl, rfl⟩
  | access a =>
    change (hostAccess a s).status.state = .busy at hb
    change (hostAccess a s).inBuf = s.inBuf ∧ (hostAccess a s).inLen = s.inLen
    rcases hostAccess_cases a s with hs | ⟨w, hs⟩ | ⟨hnb, v, hs⟩ | ⟨hnb, i, v, -, hs⟩
    · obtain ⟨-, hlen, -, -, hin, -⟩ := hs
      exact ⟨hin, hlen⟩
    · rw [hs, request]
      split <;> exact ⟨rfl, rfl⟩
    · rw [hs] at hb
      exact absurd hb hnb
    · rw [hs] at hb
      exact absurd hb hnb

/-- The core steps after an event stop only at a byte that was unwritten before the event. -/
theorem Inv.settle_hostEvent_fault {e : Event} {f : Fault} (h : Inv s) (hst : settle (hostEvent e s) = .fault f) :
    StopsOnUnwritten s f := by
  have hb : (hostEvent e s).status.state = .busy := by
    by_contra hb
    rw [settle_of_not_busy hb] at hst
    cases hst
  obtain ⟨hin, hlen⟩ := hostEvent_input_of_busy hb
  have hstart : Inv { hostEvent e s with gap := 0 } := (h.after_hostEvent e).of_sameBlock (by simp [SameBlock])
  exact (hstart.coreRun_fault hst).of_sameInput hin hlen (hostEvent_cap e s)

/-- Settles O33: a step is one core step, or an event and then core steps, and neither refuses or stops otherwise. -/
theorem stepStopsOnlyOnUnwrittenInput : Obligations.StepStopsOnlyOnUnwrittenInput := by
  intro s h
  cases ha : s.agenda with
  | nil =>
    rw [step_of_no_agenda ha]
    exact ⟨coreStep_not_refused s, fun f hst => h.coreStep_fault hst⟩
  | cons u rest =>
    rw [step_of_agenda ha]
    have hnext : Inv { s with agenda := rest, gap := u.gap } := h.of_sameBlock (by simp [SameBlock])
    exact ⟨coreRun_not_refused _ _, fun f hst => hnext.settle_hostEvent_fault hst⟩

end Sys2Proof.Machine

/-! Words and host programs: which words are commands, and what one host statement and WAIT do to the block (O1, O2, O3,
O59, O60). -/

namespace Sys2Proof.Machine

/-! ### Command words -/

/-- A command's word has RSV = 0 (R80). -/
theorem rsvField_encode (i : Instr) : rsvField (encode i) = 0#30 := by cases i <;> rfl

/-- A word with RSV = 0 and a command's OP is that command's word: there is no third field (R80). -/
theorem eq_encode_of_fields {w : Word} {i : Instr} (hr : rsvField w = 0#30) (ho : opField w = opcode i) : w = encode i := by
  apply BitVec.eq_of_toNat_eq
  rw [word_of_fields w, word_of_fields (encode i), hr, ho, rsvField_encode, opField_encode]

/-- The decoder takes each command's word for that command (R81, R83). -/
theorem decode_encode (i : Instr) : decode (encode i) = .ok i := by cases i <;> rfl

/-- Each branch of R83 that answers a command has tested both fields of its word. -/
theorem eq_encode_of_decode {w : Word} {i : Instr} (h : decode w = .ok i) : w = encode i := by
  unfold decode at h
  split_ifs at h with hr h0 h1 h2
  all_goals cases h
  · exact eq_encode_of_fields (not_not.mp hr) h0
  · exact eq_encode_of_fields (not_not.mp hr) h1
  · exact eq_encode_of_fields (not_not.mp hr) h2

/-- The words that name a command are the commands' words (R83). -/
theorem decode_eq_ok_iff {w : Word} {i : Instr} : decode w = .ok i ↔ w = encode i :=
  ⟨eq_encode_of_decode, fun h => h ▸ decode_encode i⟩

/-- A word with a reserved bit set is illegal, whatever its OP (R84). -/
theorem decode_of_reservedBits {w : Word} (hr : rsvField w ≠ 0#30) : decode w = .error .reservedBits := if_pos hr

/-- Settles O1: three words are commands' words, and the other three fall under R84. -/
theorem commandWordsWrittenOut : Obligations.CommandWordsWrittenOut :=
  ⟨decode_encode .encodeHex, decode_encode .decodeHex, decode_encode .encodeBase32, rfl,
    decode_of_reservedBits (by decide), decode_of_reservedBits (by decide)⟩

/-- Settles O2: a word that decodes to a command is its word, so a word that is none of the three is an error. -/
theorem onlyThreeWordsNameAnOperation : Obligations.OnlyThreeWordsNameAnOperation := by
  intro w
  refine ⟨decode_eq_ok_iff, decode_eq_ok_iff, decode_eq_ok_iff, fun h0 h1 h2 => ?_⟩
  cases hd : decode w with
  | error e => exact ⟨e, rfl⟩
  | ok i =>
    have hw : w = encode i := eq_encode_of_decode hd
    cases i with
    | encodeHex => exact absurd hw h0
    | decodeHex => exact absurd hw h1
    | encodeBase32 => exact absurd hw h2

/-- In the table's numbering a 32-bit word is itself (log 19). -/
theorem decodeTableWord_toNat (w : Word) : decodeTableWord 32 w.toNat = (decode w).toOption := by
  rw [decodeTableWord, if_pos ⟨le_rfl, w.isLt⟩, BitVec.ofNat_toNat, BitVec.setWidth_eq]

/-- Settles O3: both directions of `decode_eq_ok_iff`, the first one through the table's numbering as well. -/
theorem decodeAndEncodeAgree : Obligations.DecodeAndEncodeAgree := by
  refine ⟨fun i => ⟨decode_encode i, ?_⟩, fun w i => eq_encode_of_decode⟩
  rw [decodeTableWord_toNat, decode_encode]
  rfl

/-! ### The accesses of statements -/

/-- No index of IN wraps (R51). -/
theorem inOffset_toNat {i : Nat} (hi : i < 0x10000) : (inOffset i).toNat = 0x10000 + i := by
  simp only [inOffset, inBase, BitVec.toNat_ofNat]
  omega

/-- No index of OUT wraps (R51). -/
theorem outOffset_toNat {j : Nat} (hj : j < 0x20000) : (outOffset j).toNat = 0x20000 + j := by
  simp only [outOffset, outBase, BitVec.toNat_ofNat]
  omega

/-- A number that fits a register is written as it is (R86). -/
theorem evalVal_num_toNat (vars : List (Nat × Word)) {n : Nat} (hn : n < 2 ^ 32) : (evalVal vars (.num n)).toNat = n := by
  rw [evalVal_num, BitVec.toNat_ofNat, Nat.mod_eq_of_lt hn]

/-- The variable just set reads its new value. -/
theorem getVar_cons_self (vars : List (Nat × Word)) (x : Nat) (v : Word) : getVar ((x, v) :: vars) x = v := by
  rw [getVar_cons, if_pos rfl]

/-- Every other variable reads as before. -/
theorem getVar_cons_of_ne (vars : List (Nat × Word)) (v : Word) {x y : Nat} (hy : y ≠ x) :
    getVar ((x, v) :: vars) y = getVar vars y := by
  rw [getVar_cons, if_neg hy.symm]

/-! ### One statement -/

section
variable {h : HostMachine} {g : Nat}

/-- A statement with an access is one step of the block, with that access as its next event (R86). -/
theorem hostStep_of_access {t : Stmt} {a : Access} {b : State} (he : h.ended = false) (ht : h.prog[h.pc]? = some t)
    (ha : stmtAccess h.vars t = some a)
    (hs : step { h.block with agenda := { event := .access a, gap := g } :: h.block.agenda } = .next b) :
    hostStep g h = .next (afterAccess h t a b) := by
  rw [hostStep, if_neg (by simp [he]), ht]
  cases t with
  | label | jeq | stop => cases ha
  | w32 | r32 | w8in | r8in | w8out | r8out | r8reg => simp only [ha, hs]

/-- A label only passes the program on (R86). -/
theorem hostStep_label {l : Nat} (he : h.ended = false) (ht : h.prog[h.pc]? = some (.label l)) :
    hostStep g h = .next { h with pc := h.pc + 1 } := by
  rw [hostStep, if_neg (by simp [he]), ht]

/-- A jump to a label that the program has goes there or on, as the field equals the value or not (R86). -/
theorem hostStep_jeq {x hi lo l k : Nat} {v : Val} (he : h.ended = false)
    (ht : h.prog[h.pc]? = some (.jeq x hi lo v l)) (hl : labelPlace l h.prog 0 = some k) :
    hostStep g h =
      .next { h with pc := if varField (getVar h.vars x) hi lo = valNat h.vars v then k else h.pc + 1 } := by
  rw [hostStep, if_neg (by simp [he]), ht]
  dsimp only
  split
  · rw [hl]
  · rfl

end

/-- Settles O59: the table of R86 by its rows, then the statement's step, which leaves the host as `afterAccess` says. -/
theorem hostStatementIsItsAccess : Obligations.HostStatementIsItsAccess := by
  refine ⟨?registers, ?input, ?output, ?values, ?targets, ?statement⟩
  case registers =>
    intro vars v x
    exact ⟨rfl, rfl, rfl, rfl, rfl, rfl, rfl, rfl, rfl, rfl, rfl, rfl, rfl, rfl, rfl⟩
  case input =>
    intro vars v x i hi
    exact ⟨inOffset i, inOffset_toNat hi, by rw [stmtAccess, BitVec.setWidth_eq_extractLsb' (by decide)], rfl⟩
  case output =>
    intro vars v x j hj
    exact ⟨outOffset j, outOffset_toNat hj, by rw [stmtAccess, BitVec.setWidth_eq_extractLsb' (by decide)], rfl⟩
  case values =>
    intro vars
    exact ⟨fun n => evalVal_num_toNat vars, evalVal_var vars, evalVal_op vars .encodeHex, evalVal_op vars .decodeHex,
      evalVal_op vars .encodeBase32, fun _ => rfl, fun _ _ _ _ _ => rfl, rfl⟩
  case targets =>
    intro r x i
    exact ⟨rfl, rfl, rfl, rfl⟩
  case statement =>
    intro h g t a b he ht ha hs
    refine ⟨afterAccess h t a b, hostStep_of_access he ht ha hs, rfl, rfl, rfl, he, afterAccess_vars_of_none h t a b,
      fun x r hx hr => ?_, recordFault_of_busError h a b, recordFault_of_ok h a b⟩
    rw [afterAccess_vars_of_read h t a b hx hr]
    exact ⟨getVar_cons_self _ _ _, fun y hy => getVar_cons_of_ne _ _ hy⟩

/-! ### WAIT -/

/-- A STATUS read with no core step after it gives the STATUS word, and changes nothing of the block (R54). -/
theorem step_statusRead (s : State) :
    step { s with agenda := { event := .access (.read4 statusOffset), gap := 0 } :: s.agenda } =
      .next { s with gap := 0, response := some (.data32 (statusWord s.status)) } := by
  rw [step_of_agenda rfl]
  dsimp only [hostEvent]
  rw [hostAccess_read4 _ (by decide) (by decide)]
  rfl

/-- The field that WAIT tests, STATUS[1:0], is the code of STATE (R28). -/
theorem varField_statusWord (st : Status) : varField (statusWord st) 1 0 = (stateBits st.state).toNat := by
  have hlt := (stateBits st.state).isLt
  rw [varField, statusWord_toNat]
  omega

/-- WAIT's test holds exactly while BUSY: no other state has the code 1 (R28, R87). -/
theorem varField_statusWord_eq_one_iff (st : Status) : varField (statusWord st) 1 0 = 1 ↔ st.state = .busy := by
  rw [varField_statusWord]
  cases st.state <;> decide

/-- The three statements of WAIT stand at their places, and its label is found there if it does not stand before (R87). -/
theorem waitStmts_places {p before after : List Stmt} {w x : Nat} (hp : p = before ++ waitStmts w x ++ after)
    (hw : ∀ t ∈ before, t ≠ .label w) :
    p[before.length]? = some (.label w) ∧ p[before.length + 1]? = some (.r32 .status x) ∧
    p[before.length + 2]? = some (.jeq x 1 0 (.num 1) w) ∧ labelPlace w p 0 = some before.length := by
  rw [List.append_assoc] at hp
  subst hp
  have hplace := labelPlace_first w before (.r32 .status x :: .jeq x 1 0 (.num 1) w :: after) hw 0
  rw [Nat.zero_add] at hplace
  exact ⟨by simp [waitStmts], by simp [waitStmts], by simp [waitStmts], hplace⟩

/-- A STATUS read with no core step after it puts the STATUS word into its variable, and does nothing else (R54, R86). -/
theorem hostStep_statusRead {h : HostMachine} {x : Nat} (he : h.ended = false)
    (ht : h.prog[h.pc]? = some (.r32 .status x)) : ∃ b, SameBlock h.block b ∧
      hostStep 0 h = .next { h with block := b, pc := h.pc + 1, vars := (x, statusWord h.block.status) :: h.vars } :=
  ⟨{ h.block with gap := 0, response := some (.data32 (statusWord h.block.status)) }, by simp [SameBlock],
    hostStep_of_access he ht rfl (step_statusRead h.block)⟩

/-- Settles O60: the label passes on, the read brings the STATUS word, and the jump goes by its STATE field. -/
theorem waitLoopsWhileBusy : Obligations.WaitLoopsWhileBusy := by
  intro h w x before after he hp hpc hw
  obtain ⟨hlabel, hread, hjump, hplace⟩ := waitStmts_places hp hw
  rw [← hpc] at hlabel hread hjump hplace ⊢
  obtain ⟨b, hb, hstatus⟩ := hostStep_statusRead (h := { h with pc := h.pc + 1 }) he hread
  have htest : varField (getVar ((x, statusWord h.block.status) :: h.vars) x) 1 0 = 1 ↔ h.block.status.state = .busy := by
    rw [getVar_cons_self, varField_statusWord_eq_one_iff]
  exact ⟨_, _, _, hostStep_label he hlabel, hstatus, hostStep_jeq he hjump hplace, hb, he, rfl, getVar_cons_self _ _ _,
    fun hbusy => if_pos (htest.mpr hbusy), fun hbusy => if_neg (htest.not.mpr hbusy)⟩

end Sys2Proof.Machine

/-! The command protocol: a request, the core steps of its phases, and what a running command makes of the host's accesses
(O10, O11, O16, O30). -/

namespace Sys2Proof.Machine

variable {s : State}

/-! ### Requests -/

/-- ILL as R102 words it. -/
theorem illegalWord_eq_decide (w : Word) :
    illegalWord w = decide (w.extractLsb' 2 30 ≠ 0#30 ∨ w.extractLsb' 0 2 = 3#2) := by
  simp [illegalWord, bne, Bool.beq_eq_decide_eq]

/-- Settles O11: a CMD write is a request, and acceptance makes the writes of R102. -/
theorem commandRequestIsAcceptedUnlessBusy : Obligations.CommandRequestIsAcceptedUnlessBusy := by
  refine fun s w => ⟨fun hb => (hostAccess_cmd w s).trans (request_of_busy _ _ hb), fun hb => ?_⟩
  rw [← illegalWord_eq_decide]
  exact (hostAccess_cmd w s).trans (request_of_not_busy _ _ hb)

/-- Settles O30: the request is ignored, and the core steps are left. -/
theorem commandWhileBusyIsIgnored : Obligations.CommandWhileBusyIsIgnored :=
  fun i _ => exec_of_busy i

/-! ### Accesses while BUSY -/

/-- While BUSY no write to a register does anything but answer: CMD and IN_LEN are locked, the others ignored (R54, R104). -/
theorem regWrite_busy (a : Offset) (v : Word) (hb : s.status.state = .busy) : regWrite a v s = s := by
  by_cases hc : a = cmdOffset
  · rw [regWrite, if_pos hc, request_of_busy _ _ hb]
  · rw [regWrite, if_neg hc, if_neg fun h => h.2 hb]

/-- Settles O10: the registers are locked or ignore writes, IN is locked, and every read is answered by its region's rule. -/
theorem writesWhileBusyLeaveNoTrace : Obligations.WritesWhileBusyLeaveNoTrace := by
  intro s hb
  have hwrite (a : Offset) (v : Word) (hlo : a.toNat ≤ 0x0FFFF) (h4 : a.toNat % 4 = 0) :
      hostAccess (.write4 a v) s = { s with response := some .ok } := by
    rw [hostAccess_write4 s v hlo h4, regWrite_busy a v hb]
  refine ⟨fun v => hwrite _ v (by decide) (by decide), fun v => hwrite _ v (by decide) (by decide),
    fun a v ha => hostAccess_write1_ignored v ha (.inr (.inr hb)), hwrite, fun a hlo h4 => ?_, fun a ha => ?_⟩
  · exact ⟨_, by rw [hostAccess_read4 s hlo h4]⟩
  · rw [hostAccess_read1 s ha]
    exact bufRead_response a s

/-! ### Core steps -/

/-- Settles O16: the CHECK step by its checks, the RUN step by CUR_OP. -/
theorem coreStepFollowsItsPhase : Obligations.CoreStepFollowsItsPhase := by
  intro s hb
  refine ⟨fun hp hill => ?_, fun hp hill hn => ?_, fun hp hill hn => ?_, coreStep_hexEncoder hb, coreStep_hexDecoder hb,
    coreStep_base32Encoder hb⟩
  · rw [coreStep_check hb hp, checkStep_ill hill]; rfl
  · rw [coreStep_check hb hp, checkStep_capacity hill hn]; rfl
  · rw [coreStep_check hb hp, checkStep_pass hill hn]

end Sys2Proof.Machine

/-! A running command whose input is written does not stop, and every core step brings it nearer to its end (O32, O36). -/

namespace Sys2Proof.Machine

variable {s t : State}

/-! ### No stop on written input -/

/-- The input bytes are written if their number fits IN_CAP; a longer input is never read (R203, U6). -/
def InputReady (s : State) : Prop := s.inLen ≤ s.cap → InputWritten s s.inLen.toNat

theorem InputReady.of_sameInput (h : InputReady s) (hst : SameInput s t) : InputReady t := by
  obtain ⟨hin, hlen, hcap, -⟩ := hst
  simpa only [InputReady, InputWritten, hin, hlen, hcap] using h

/-- With its input written a core step goes on: CHECK reads no input, and in RUN the length fits. -/
theorem Inv.coreStep_next (h : Inv s) (hin : InputReady s) : ∃ t, coreStep s = .next t := by
  cases hst : coreStep s with
  | next t => exact ⟨t, rfl⟩
  | refused r => exact absurd hst (coreStep_not_refused s r)
  | fault f =>
    obtain ⟨i, -, -, hi, hunwritten⟩ := h.coreStep_fault hst
    by_cases hb : s.status.state = .busy
    · have busy := h.busy hb
      cases hp : s.phase with
      | check => rw [coreStep_check hb hp] at hst; cases hst
      | run =>
        have hfit : s.inLen ≤ s.cap := busy.lenLatched ▸ (busy.running hp).fits
        obtain ⟨-, hwritten⟩ := hin hfit i hi
        simp [hunwritten] at hwritten
    · rw [coreStep_of_not_busy hb] at hst; cases hst

/-- With its input written no run of core steps stops. -/
theorem Inv.coreRun_next (h : Inv s) (hin : InputReady s) (k : Nat) : ∃ t, coreRun k s = .next t := by
  induction k generalizing s with
  | zero => exact ⟨s, rfl⟩
  | succ k ih =>
    obtain ⟨u, hu⟩ := h.coreStep_next hin
    rw [coreRun_step hu]
    exact ih (h.after_coreStep hu) (hin.of_sameInput (coreStep_frame hu).1)

/-- A core step of a running command leaves it running, or ends it as DONE or ERROR (R106, R200). -/
theorem coreStep_state (h : coreStep s = .next t) (hb : s.status.state = .busy) :
    t.status.state = .busy ∨ t.status.state = .done ∨ t.status.state = .error := by
  rcases coreStep_status h hb with ⟨hs, -⟩ | rfl | ⟨e, info, -, rfl⟩
  · exact .inl (hs ▸ hb)
  · exact .inr (.inl rfl)
  · exact .inr (.inr rfl)

/-- No core step leads to IDLE (R231). -/
theorem coreStep_not_idle (h : coreStep s = .next t) (hs : s.status.state ≠ .idle) : t.status.state ≠ .idle := by
  by_cases hb : s.status.state = .busy
  · rcases coreStep_state h hb with hs | hs | hs <;> simp [hs]
  · rw [coreStep_of_not_busy hb] at h
    cases h
    exact hs

/-- Settles O32: the command is accepted, and its core steps do not stop, keep the invariant and never lead to IDLE. -/
theorem commandNeverStopsOnWrittenInput : Obligations.CommandNeverStopsOnWrittenInput := by
  intro i s h hb hin
  have hstart : Inv (accept (encode i) { s with gap := 0 }) :=
    (h.of_sameBlock (t := { s with gap := 0 }) (by simp [SameBlock])).after_accept _
  obtain ⟨t, ht⟩ := hstart.coreRun_next hin s.gap
  rw [exec_of_not_busy i hb]
  refine ⟨t, ht, hstart.after_coreRun ht, fun hg => ?_, ?_⟩
  · rw [hg] at ht
    cases ht
    rfl
  · exact coreRun_keeps (fun u => u.status.state ≠ .idle) (fun _ _ hs hst => coreStep_not_idle hst hs) ht (by simp)

/-! ### Progress -/

/-- What a running command still has to do at most: CHECK, input bytes to read, and room in OUT. -/
def remaining (s : State) : Nat :=
  (if s.phase = .check then 1 else 0) + (s.n.toNat - s.idx.toNat) + (outCap s - s.outPtr.toNat)

theorem remaining_of_run (hp : s.phase = .run) :
    remaining s = (s.n.toNat - s.idx.toNat) + (outCap s - s.outPtr.toNat) := by
  simp [remaining, hp]

/-- A step that reads a byte leaves less to do, whatever it puts out. -/
theorem remaining_lt_of_read (hst : coreStep s = .next t) (hp : s.phase = .run) (hp' : t.phase = .run)
    (hlt : s.idx.toNat < s.n.toNat) (hidx : t.idx = s.idx + 1#17) : remaining t < remaining s := by
  obtain ⟨⟨-, -, hcap, -⟩, -, -, -, hn, -⟩ := coreStep_frame hst
  obtain ⟨hptr, -⟩ := coreStep_output hst
  rw [remaining_of_run hp, remaining_of_run hp', hn, outCap, outCap, hcap, hidx, idx_succ hlt]
  omega

/-- A step that reads nothing and puts a byte out leaves less to do. -/
theorem remaining_lt_of_emit (hst : coreStep s = .next t) (hp : s.phase = .run) (hp' : t.phase = .run)
    (hr : s.outPtr.toNat < outCap s) (hidx : t.idx = s.idx) (hptr : t.outPtr = s.outPtr + 1#18) :
    remaining t < remaining s := by
  obtain ⟨⟨-, -, hcap, -⟩, -, -, -, hn, -⟩ := coreStep_frame hst
  rw [outCap] at hr
  rw [remaining_of_run hp, remaining_of_run hp', hn, outCap, outCap, hcap, hidx, hptr, outPtr_succ hr]
  omega

theorem symbolOut_idx (s : State) : (symbolOut s).idx = s.idx := by
  unfold symbolOut countSymbol; split <;> rfl

/-- A core step of a running command ends it or leaves less to do: it passes CHECK, reads a byte or puts one out. -/
theorem coreStep_ends_or_progresses (hst : coreStep s = .next t) (hb : s.status.state = .busy) :
    t.status.state ≠ .busy ∨ remaining t < remaining s := by
  rcases coreStep_cases hst with ⟨hnb, -⟩ | ⟨-, hp, rfl⟩ | ⟨-, hp, -, h⟩ | ⟨-, hp, -, h⟩ | ⟨-, hp, -, h⟩
  · exact absurd hb hnb
  · rcases checkStep_cases s with ⟨-, hc⟩ | ⟨-, -, hc⟩ | ⟨-, -, hc⟩
    · exact .inl (by simp [hc])
    · exact .inl (by simp [hc])
    · exact .inr (by simp [hc, remaining, hp, outCap])
  · rcases hexEncoderStep_next h with ⟨hlt, -, -, b, -, -, rfl⟩ | ⟨-, rfl⟩
    · exact .inr (remaining_lt_of_read hst hp hp (BitVec.lt_def.mp hlt) rfl)
    · exact .inl (by simp)
  · rcases hexDecoderStep_next h with ⟨hlt, -, c, -, ⟨-, rfl⟩ | ⟨v, -, ⟨-, rfl⟩ | ⟨-, -, rfl⟩⟩⟩ | ⟨-, rfl⟩
    · exact .inl (by simp)
    · exact .inr (remaining_lt_of_read hst hp hp (hlt.trans_le (consumed_le _)) rfl)
    · exact .inr (remaining_lt_of_read hst hp hp (hlt.trans_le (consumed_le _)) rfl)
    · exact .inl (by simp)
  · rcases base32EncoderStep_next h with ⟨-, rfl⟩ | ⟨-, -, hlt, -, b, -, rfl⟩ | ⟨-, -, hr, rfl⟩ | ⟨-, -, -, rfl⟩
    · exact .inl (by simp)
    · exact .inr (remaining_lt_of_read hst hp hp (BitVec.lt_def.mp hlt) rfl)
    · obtain ⟨-, -, hphase, -, -, hptr, -⟩ := symbolOut_fields s
      exact .inr (remaining_lt_of_emit hst hp (hphase.trans hp) hr (symbolOut_idx s) hptr)
    · exact .inl (by simp)

/-! ### The end of a command left alone -/

/-- A running command whose input is written ends after some number of core steps (R107). -/
theorem Inv.coreRun_ends (h : Inv s) (hin : InputReady s) (hb : s.status.state = .busy) :
    ∃ k t, coreRun k s = .next t ∧ (t.status.state = .done ∨ t.status.state = .error) := by
  induction hr : remaining s using Nat.strong_induction_on generalizing s with
  | _ r ih =>
    obtain ⟨u, hu⟩ := h.coreStep_next hin
    rcases coreStep_state hu hb with hub | hend
    · have hless : remaining u < r := by
        rcases coreStep_ends_or_progresses hu hb with hnb | hlt
        · exact absurd hub hnb
        · exact hr ▸ hlt
      obtain ⟨k, t, hk, hend⟩ :=
        ih _ hless (h.after_coreStep hu) (hin.of_sameInput (coreStep_frame hu).1) hub rfl
      exact ⟨k + 1, t, by rw [coreRun_step hu, hk], hend⟩
    · exact ⟨1, u, by rw [coreRun_step hu, coreRun_zero], hend⟩

/-- With no event to come the machine takes core steps alone (R107). -/
theorem core_run_of_coreRun {k : Nat} (ha : s.agenda = []) (h : coreRun k s = .next t) :
    Host.Core.run Sys2Proof.core k s = .next t := by
  induction k generalizing s with
  | zero => exact h
  | succ k ih =>
    rw [coreRun_succ] at h
    obtain ⟨u, hu, h⟩ := andThen_eq_next h
    obtain ⟨⟨-, -, -, -, hagenda, -⟩, -⟩ := coreStep_frame hu
    rw [core_run_step ((step_of_no_agenda ha).trans hu)]
    exact ih (hagenda.trans ha) h

/-- Settles O36: the core ends the command, and the steps of the machine are the core's. -/
theorem leftAloneTheCoreEndsTheCommand : Obligations.LeftAloneTheCoreEndsTheCommand := by
  intro s h ha hb hin
  rw [(h.busy hb).lenLatched] at hin
  obtain ⟨k, t, hk, hend⟩ := h.coreRun_ends hin hb
  exact ⟨k, t, core_run_of_coreRun ha hk, hend⟩

end Sys2Proof.Machine

/-! What the three units leave in OUT, step by step (R125, R147, R167): the state after each of their steps, and with it the
bytes stored so far, which the functional definitions give too. -/

namespace Sys2Proof.Machine

variable {s t u : State}

/-! ### Output and input of a datapath -/

/-- OUT `m` holds the bytes `out` from index 0 on, and above them what `m0` holds. -/
def StoredOver (m0 : Memory) (out : List Byte) (m : Memory) : Prop :=
  ∀ j, Memory.read m j = (out[j]?).or (Memory.read m0 j)

theorem storedOver_nil (m : Memory) : StoredOver m [] m := fun j => by simp

/-- One more byte at the output cursor. -/
theorem StoredOver.write {m0 m : Memory} {out : List Byte} {p : Nat} (h : StoredOver m0 out m) (hp : p = out.length)
    (v : Byte) : StoredOver m0 (out ++ [v]) (Memory.write m p v) := by
  intro j
  rw [Memory.read_write, h j, hp, List.getElem?_append]
  rcases Nat.lt_trichotomy j out.length with hj | rfl | hj
  · simp [hj, hj.ne']
  · simp
  · have : ¬ j - out.length = 0 := by omega
    simp [hj.not_gt, hj.ne, this]

/-- The stored bytes read back. -/
theorem StoredOver.read_of_lt {m0 m : Memory} {out : List Byte} (h : StoredOver m0 out m) {j : Nat} (hj : j < out.length) :
    Memory.read m j = out[j]? := by
  rw [h j, List.getElem?_eq_getElem hj]; rfl

/-- A written input byte is there for a datapath step, and it is the byte the functional definitions take. -/
theorem InputWritten.read {i k : Nat} (h : InputWritten s k) (hi : i < k) :
    i < s.cap.toNat ∧ Memory.read s.inBuf i = some (inValue s i) := by
  obtain ⟨hc, hb⟩ := h i hi
  obtain ⟨b, hb⟩ := Option.isSome_iff_exists.mp hb
  exact ⟨hc, by rw [inValue_of_read hb, hb]⟩

/-- An input cursor up to N does not wrap (R112). -/
theorem idx_ofNat {k : Nat} {n : BitVec 17} (h : k ≤ n.toNat) : (BitVec.ofNat 17 k).toNat = k := by
  have := n.isLt
  rw [BitVec.toNat_ofNat, Nat.mod_eq_of_lt (by omega)]

/-- An output cursor up to OUT_CAP does not wrap (R112). -/
theorem outPtr_ofNat {p : Nat} (h : p ≤ outCap s) : (BitVec.ofNat 18 p).toNat = p := by
  have := s.cap.isLt
  rw [outCap] at h
  rw [BitVec.toNat_ofNat, Nat.mod_eq_of_lt (by omega)]

/-- A unit about to start: CHECK has passed, and nothing is read or put out yet (R105). -/
structure DatapathStart (s : State) (op : BitVec 2) : Prop where
  busy   : s.status.state = .busy
  run    : s.phase = .run
  curOp  : s.curOp = op
  idx    : s.idx = 0#17
  outPtr : s.outPtr = 0#18
  fits   : s.n ≤ s.cap

/-- Two runs one after the other. -/
theorem coreRun_trans {j k : Nat} (h : coreRun j s = .next t) (h' : coreRun k t = .next u) :
    coreRun (j + k) s = .next u := by
  rw [coreRun_add, h, andThen_next, h']

/-! ### hex_encoder -/

@[simp] theorem hexEncode_length (t : List Byte) : (hexEncode t).length = 2 * t.length := by
  induction t with
  | nil => rfl
  | cons b t ih => simp [hexEncode, ih]; omega

/-- hex_encoder started in `s`, after `k` bytes, with OUT `m`. -/
abbrev hexEncoderAt (s : State) (m : Memory) (k : Nat) : State :=
  { s with outBuf := m, idx := BitVec.ofNat 17 k, outPtr := BitVec.ofNat 18 (2 * k) }

theorem hexEncoderAt_zero (h : DatapathStart s 0#2) : hexEncoderAt s s.outBuf 0 = s := by
  rw [hexEncoderAt, ← h.idx, ← h.outPtr]

theorem coreStep_hexEncoderAt (h : DatapathStart s 0#2) (m : Memory) (k : Nat) :
    coreStep (hexEncoderAt s m k) = hexEncoderStep (hexEncoderAt s m k) :=
  coreStep_hexEncoder h.busy h.run h.curOp

/-- The step of hex_encoder on byte `k` (R124). -/
theorem coreStep_hexEncoderAt_byte (h : DatapathStart s 0#2) (m : Memory) {k : Nat} (hk : k < s.n.toNat)
    (hin : InputWritten s (k + 1)) :
    coreStep (hexEncoderAt s m k) = .next (hexEncoderAt s
      (Memory.write (Memory.write m (2 * k) (hexLut (hiNibble (inValue s k)))) (2 * k + 1)
        (hexLut (loNibble (inValue s k)))) (k + 1)) := by
  obtain ⟨hc, hb⟩ := hin.read (Nat.lt_succ_self k)
  have hfit := BitVec.le_def.mp h.fits
  have ei := idx_ofNat hk.le
  have ep : (BitVec.ofNat 18 (2 * k)).toNat = 2 * k := outPtr_ofNat (s := s) (by rw [outCap]; omega)
  have ep1 : (BitVec.ofNat 18 (2 * k + 1)).toNat = 2 * k + 1 := outPtr_ofNat (s := s) (by rw [outCap]; omega)
  rw [coreStep_hexEncoderAt h, hexEncoderStep_byte (b := inValue s k)]
  · simp only [hexEncoded, ← BitVec.ofNat_add, ep, ep1]
    rfl
  · simpa only [BitVec.lt_def, ei] using hk
  · simpa only [ei] using hc
  · simpa only [ei] using hb
  · simp only [ep, outCap]; omega
  · simp only [← BitVec.ofNat_add, ep1, outCap]; omega

/-- hex_encoder after `k` bytes (R125). -/
theorem coreRun_hexEncoder (h : DatapathStart s 0#2) {k : Nat} (hk : k ≤ s.n.toNat) (hin : InputWritten s k) :
    ∃ m, StoredOver s.outBuf (hexEncode (inputBytes s k)) m ∧ coreRun k s = .next (hexEncoderAt s m k) := by
  induction k with
  | zero => exact ⟨s.outBuf, storedOver_nil _, by rw [hexEncoderAt_zero h, coreRun_zero]⟩
  | succ k ih =>
    obtain ⟨m, hm, hrun⟩ := ih (by omega) fun i hi => hin i (by omega)
    refine ⟨_, ?_, coreRun_snoc hrun (coreStep_hexEncoderAt_byte h m hk hin)⟩
    have hout := (hm.write (p := 2 * k) (by simp) (hexLut (hiNibble (inValue s k)))).write (p := 2 * k + 1) (by simp)
      (hexLut (loNibble (inValue s k)))
    simpa [inputBytes_succ, hexEncode_append, hexEncode] using hout

/-! ### hex_decoder -/

/-- Pairs that decode do so whatever follows them (R141). -/
theorem hexDecodeFrom_append {o out t v : List Byte} (ht : t.length % 2 = 0) (h : hexDecodeFrom o t = .done out) :
    hexDecodeFrom o (t ++ v) = hexDecodeFrom out v := by
  induction o, t using hexDecodeFrom.induct with
  | case1 o => cases h; rfl
  | case2 o a => simp at ht
  | case3 o a b t ha => simp [hexDecodeFrom, ha] at h
  | case4 o a b t hi ha hb => simp [hexDecodeFrom, ha, hb] at h
  | case5 o a b t hi ha lo hb ih =>
    simp only [hexDecodeFrom, ha, hb] at h
    simp only [List.cons_append, hexDecodeFrom, ha, hb]
    exact ih (by simp at ht; omega) h

/-- A last odd character changes nothing (R144). -/
theorem hexDecode_append_odd {t out : List Byte} (ht : t.length % 2 = 0) (h : hexDecode t = .done out) (c : Byte) :
    hexDecode (t ++ [c]) = .done out :=
  hexDecodeFrom_append ht h

/-- A pair of hex digits adds its byte (R141). -/
theorem hexDecode_append_pair {t out : List Byte} {a b : Byte} {hi lo : Nibble} (ht : t.length % 2 = 0)
    (h : hexDecode t = .done out) (ha : decLut a = some hi) (hb : decLut b = some lo) :
    hexDecode (t ++ [a, b]) = .done (out ++ [joinNibbles hi lo]) := by
  rw [hexDecode, hexDecodeFrom_append ht h]
  simp [hexDecodeFrom, ha, hb]

/-- The lowest invalid byte of the consumed pairs is reported (R145). -/
theorem hexDecodeFrom_invalid {o t : List Byte} {i : Nat} {c : Byte} (hi : i < 2 * (t.length / 2)) (hc : t[i]? = some c)
    (hv : decLut c = none) (hvalid : ∀ k < i, ∀ d, t[k]? = some d → (decLut d).isSome = true) :
    hexDecodeFrom o t = .error .invalidCharacter c := by
  induction o, t using hexDecodeFrom.induct generalizing i with
  | case1 o => simp at hc
  | case2 o a => simp at hi
  | case3 o a b t ha =>
    cases i with
    | zero => cases hc; simp [hexDecodeFrom, ha]
    | succ i => simpa [ha] using hvalid 0 (by omega) a rfl
  | case4 o a b t hi ha hb =>
    match i with
    | 0 => cases hc; simp [ha] at hv
    | 1 => cases hc; simp [hexDecodeFrom, ha, hb]
    | i + 2 => simpa [hb] using hvalid 1 (by omega) b rfl
  | case5 o a b t hi' ha lo hb ih =>
    match i with
    | 0 => cases hc; simp [ha] at hv
    | 1 => cases hc; simp [hb] at hv
    | i + 2 =>
      simp only [hexDecodeFrom, ha, hb]
      exact ih (by simp at hi; omega) hc fun k hk d hd => hvalid (k + 2) (by omega) d hd

/-- The low nibble of PAIR_SR is the one shifted in last (R36). -/
theorem shiftPair_lo (sr : BitVec 8) (v : Nibble) : (shiftPair sr v).extractLsb' 0 4 = v := by
  rw [shiftPair, BitVec.extractLsb'_append_eq_right]

/-- hex_decoder started in `s`, after `k` characters, with OUT `m` and PAIR_SR `p`. -/
abbrev hexDecoderAt (s : State) (m : Memory) (p : BitVec 8) (k : Nat) : State :=
  { s with
    outBuf := m, pairSr := p, idx := BitVec.ofNat 17 k, outPtr := BitVec.ofNat 18 (k / 2), half := decide (k % 2 = 1) }

/-- What hex_decoder has done after `k` characters: the whole pairs are decoded to `out`, which is stored, and inside a pair
the high nibble waits in PAIR_SR (R146, R147). -/
structure HexDecoded (s : State) (m : Memory) (p : BitVec 8) (k : Nat) (out : List Byte) : Prop where
  decoded : hexDecode (inputBytes s (2 * (k / 2))) = .done out
  length  : out.length = k / 2
  stored  : StoredOver s.outBuf out m
  high    : k % 2 = 1 → decLut (inValue s (2 * (k / 2))) = some (p.extractLsb' 0 4)

theorem HexDecoded.after_high {m : Memory} {p : BitVec 8} {k : Nat} {out : List Byte} {v : Nibble}
    (h : HexDecoded s m p k out) (hk : k % 2 = 0) (hv : decLut (inValue s k) = some v) :
    HexDecoded s m (shiftPair p v) (k + 1) out := by
  have hpairs : (k + 1) / 2 = k / 2 := by omega
  have hlast : 2 * (k / 2) = k := by omega
  refine ⟨by rw [hpairs, h.decoded], by rw [hpairs, h.length], h.stored, fun _ => ?_⟩
  rw [hpairs, hlast, shiftPair_lo, hv]

theorem HexDecoded.after_low {m : Memory} {p : BitVec 8} {k : Nat} {out : List Byte} {v : Nibble}
    (h : HexDecoded s m p k out) (hk : k % 2 = 1) (hv : decLut (inValue s k) = some v) :
    HexDecoded s (Memory.write m (k / 2) (shiftPair p v)) (shiftPair p v) (k + 1) (out ++ [shiftPair p v]) := by
  have hpairs : (k + 1) / 2 = k / 2 + 1 := by omega
  have hlast : 2 * (k / 2) + 1 = k := by omega
  refine ⟨?_, by simp [hpairs, h.length], h.stored.write h.length.symm _, fun hodd => by omega⟩
  have hbytes : inputBytes s (2 * ((k + 1) / 2)) = inputBytes s (2 * (k / 2)) ++ [inValue s (2 * (k / 2)), inValue s k] := by
    rw [hpairs, Nat.mul_succ, inputBytes_succ, inputBytes_succ, hlast, List.append_assoc]
    rfl
  rw [hbytes, hexDecode_append_pair (by simp) h.decoded (h.high hk) hv, shiftPair, joinNibbles_eq_append]

theorem coreStep_hexDecoderAt (h : DatapathStart s 1#2) (m : Memory) (p : BitVec 8) (k : Nat) :
    coreStep (hexDecoderAt s m p k) = hexDecoderStep (hexDecoderAt s m p k) :=
  coreStep_hexDecoder h.busy h.run h.curOp

theorem hexDecoderAt_zero (h : DatapathStart s 1#2) (hh : s.half = false) : hexDecoderAt s s.outBuf s.pairSr 0 = s := by
  have hhalf : decide (0 % 2 = 1) = s.half := hh.symm
  rw [hexDecoderAt, hhalf, ← h.idx, ← h.outPtr]

/-- A step of hex_decoder on a hex digit (R146). -/
theorem coreStep_hexDecoderAt_digit (h : DatapathStart s 1#2) {m : Memory} {p : BitVec 8} {k : Nat} {out : List Byte}
    {v : Nibble} (hd : HexDecoded s m p k out) (hk : k < consumed s.n.toNat) (hin : InputWritten s (k + 1))
    (hv : decLut (inValue s k) = some v) :
    ∃ m' p' out', coreStep (hexDecoderAt s m p k) = .next (hexDecoderAt s m' p' (k + 1)) ∧
      HexDecoded s m' p' (k + 1) out' := by
  obtain ⟨hc, hb⟩ := hin.read (Nat.lt_succ_self k)
  have hn := consumed_le s.n.toNat
  have hfit := BitVec.le_def.mp h.fits
  have ei := idx_ofNat (k := k) (n := s.n) (by omega)
  rw [coreStep_hexDecoderAt h]
  rcases Nat.mod_two_eq_zero_or_one k with heven | hodd
  · refine ⟨m, shiftPair p v, out, ?_, hd.after_high heven hv⟩
    rw [hexDecoderStep_high (c := inValue s k) (v := v)]
    · have hpairs : (k + 1) / 2 = k / 2 := by omega
      have hhalf : (k + 1) % 2 = 1 := by omega
      simp only [hexHighTaken, hexDecoderAt, ← BitVec.ofNat_add, hpairs, hhalf, decide_true]
    · simpa only [ei] using hk
    · simpa only [ei] using hc
    · simpa only [ei] using hb
    · exact hv
    · simp [heven]
  · have ep : (BitVec.ofNat 18 (k / 2)).toNat = k / 2 := outPtr_ofNat (s := s) (by rw [outCap]; omega)
    refine ⟨_, shiftPair p v, _, ?_, hd.after_low hodd hv⟩
    rw [hexDecoderStep_low (c := inValue s k) (v := v)]
    · have hpairs : (k + 1) / 2 = k / 2 + 1 := by omega
      have hhalf : ¬ (k + 1) % 2 = 1 := by omega
      simp only [hexLowTaken, hexDecoderAt, ← BitVec.ofNat_add, ep, hpairs, hhalf, decide_false]
    · simpa only [ei] using hk
    · simpa only [ei] using hc
    · simpa only [ei] using hb
    · exact hv
    · simp [hodd]
    · simp only [ep, outCap]; omega

/-- hex_decoder after `k` hex digits (R147). -/
theorem coreRun_hexDecoder (h : DatapathStart s 1#2) (hh : s.half = false) {k : Nat} (hk : k ≤ consumed s.n.toNat)
    (hin : InputWritten s k) (hv : ∀ i < k, (decLut (inValue s i)).isSome = true) :
    ∃ m p out, coreRun k s = .next (hexDecoderAt s m p k) ∧ HexDecoded s m p k out := by
  induction k with
  | zero =>
    exact ⟨s.outBuf, s.pairSr, [], by rw [hexDecoderAt_zero h hh, coreRun_zero], rfl, rfl, storedOver_nil _, by simp⟩
  | succ k ih =>
    obtain ⟨m, p, out, hrun, hd⟩ := ih (by omega) (fun i hi => hin i (by omega)) fun i hi => hv i (by omega)
    obtain ⟨v, hvk⟩ := Option.isSome_iff_exists.mp (hv k (by omega))
    obtain ⟨m', p', out', hstep, hd'⟩ := coreStep_hexDecoderAt_digit h hd hk hin hvk
    exact ⟨m', p', out', coreRun_snoc hrun hstep, hd'⟩

/-! ### base32_encoder -/

/-- base32_encoder started in `s`, with OUT `m`, SR40 `x`, `i` bytes read, `p` characters out, LOADS `l` and SYMS `y`. -/
abbrev base32EncoderAt (s : State) (m : Memory) (x : BitVec 40) (i p l y : Nat) : State :=
  { s with
    outBuf := m, sr40 := x, idx := BitVec.ofNat 17 i, outPtr := BitVec.ofNat 18 p, loads := BitVec.ofNat 3 l
    syms := BitVec.ofNat 4 y }

theorem base32EncoderAt_zero (h : DatapathStart s 2#2) (hl : s.loads = 0#3) (hy : s.syms = 0#4) :
    base32EncoderAt s s.outBuf s.sr40 0 0 0 0 = s := by
  rw [base32EncoderAt, ← h.idx, ← h.outPtr, ← hl, ← hy]

theorem coreStep_base32EncoderAt (h : DatapathStart s 2#2) (m : Memory) (x : BitVec 40) (i p l y : Nat) :
    coreStep (base32EncoderAt s m x i p l y) = base32EncoderStep (base32EncoderAt s m x i p l y) :=
  coreStep_base32Encoder h.busy h.run h.curOp

/-- A load (R165). -/
theorem coreStep_base32EncoderAt_load (h : DatapathStart s 2#2) (h5 : s.n.toNat % 5 = 0) (m : Memory) (x : BitVec 40)
    {i p l : Nat} (hi : i < s.n.toNat) (hl : l < 5) (hin : InputWritten s (i + 1)) :
    coreStep (base32EncoderAt s m x i p l 0) =
      .next (base32EncoderAt s m (shiftLoad x (inValue s i)) (i + 1) p (l + 1) 0) := by
  obtain ⟨hc, hb⟩ := hin.read (Nat.lt_succ_self i)
  have ei := idx_ofNat hi.le
  rw [coreStep_base32EncoderAt h, base32EncoderStep_load (s := base32EncoderAt s m x i p l 0) (b := inValue s i) h5]
  · simp only [byteLoaded, base32EncoderAt, ← BitVec.ofNat_add]
  · rw [BitVec.lt_def, BitVec.toNat_ofNat, Nat.mod_eq_of_lt (by omega)]; exact hl
  · simpa only [BitVec.lt_def, ei] using hi
  · simpa only [ei] using hc
  · simpa only [ei] using hb

/-- SR40 after `j` loads of the bytes from IN[i] on (R165). -/
def sr40Loaded (s : State) (x : BitVec 40) (i : Nat) : Nat → BitVec 40
  | 0 => x
  | j + 1 => shiftLoad (sr40Loaded s x i j) (inValue s (i + j))

/-- Five loads push out what SR40 held before (R165). -/
theorem sr40Loaded_group (s : State) (x : BitVec 40) (i : Nat) :
    sr40Loaded s x i 5 = groupValue (inValue s i) (inValue s (i + 1)) (inValue s (i + 2)) (inValue s (i + 3))
      (inValue s (i + 4)) := by
  apply BitVec.eq_of_toNat_eq
  simp only [sr40Loaded, shiftLoad_toNat, groupValue_toNat, Nat.add_zero]
  omega

/-- The loads of a group (R167). -/
theorem coreRun_base32Loads (h : DatapathStart s 2#2) (h5 : s.n.toNat % 5 = 0) (m : Memory) (x : BitVec 40) {i p j : Nat}
    (hj : j ≤ 5) (hi : i + j ≤ s.n.toNat) (hin : InputWritten s (i + j)) :
    coreRun j (base32EncoderAt s m x i p 0 0) = .next (base32EncoderAt s m (sr40Loaded s x i j) (i + j) p j 0) := by
  induction j with
  | zero => rfl
  | succ j ih =>
    exact coreRun_snoc (ih (by omega) (by omega) fun b hb => hin b (by omega))
      (coreStep_base32EncoderAt_load h h5 m _ (by omega) (by omega) hin)

/-- The extract shift moves every later symbol one place up (R166). -/
theorem groupSymbol_shiftSymbol (v : BitVec 40) {j : Nat} (hj : j < 7) :
    groupSymbol (shiftSymbol v) j = groupSymbol v (j + 1) := by
  apply BitVec.eq_of_toNat_eq
  rw [groupSymbol_toNat, groupSymbol_toNat, shiftSymbol_toNat]
  interval_cases j <;> omega

theorem groupSymbol_shiftSymbol_iterate (v : BitVec 40) {y j : Nat} (hj : j + y < 8) :
    groupSymbol (shiftSymbol^[y] v) j = groupSymbol v (j + y) := by
  induction y generalizing v with
  | zero => rfl
  | succ y ih =>
    rw [Function.iterate_succ_apply, ih _ (by omega), groupSymbol_shiftSymbol v (by omega)]
    rfl

/-- The top symbol after `y` extract shifts is symbol `y` of the group (R166). -/
theorem topSymbol_shiftSymbol_iterate (v : BitVec 40) {y : Nat} (hy : y < 8) :
    topSymbol (shiftSymbol^[y] v) = groupSymbol v y := by
  have h : groupSymbol (shiftSymbol^[y] v) 0 = groupSymbol v (0 + y) := groupSymbol_shiftSymbol_iterate v (by omega)
  rwa [Nat.zero_add] at h

/-- The first `y` characters of a group (R161, R168). -/
def groupStart (v : BitVec 40) (y : Nat) : List Byte := (List.range y).map fun j => b32Lut (groupSymbol v j)

theorem groupStart_succ (v : BitVec 40) (y : Nat) :
    groupStart v (y + 1) = groupStart v y ++ [b32Lut (groupSymbol v y)] := by
  simp [groupStart, List.range_succ]

/-- The counters after symbol `y` of a group, which starts the next group at the eighth (R166). -/
theorem countSymbol_ofNat (s : State) {y : Nat} (hy : y < 8) (hs : s.syms = BitVec.ofNat 4 y) :
    countSymbol s = if y = 7 then { s with loads := 0#3, syms := 0#4 } else { s with syms := BitVec.ofNat 4 (y + 1) } := by
  have h8 : BitVec.ofNat 4 (y + 1) = 8#4 ↔ y = 7 := by
    rw [← BitVec.toNat_inj, BitVec.toNat_ofNat, BitVec.toNat_ofNat]; omega
  rw [countSymbol, hs, ← BitVec.ofNat_add]
  simp only [h8]

/-- An extraction (R166). -/
theorem coreStep_base32EncoderAt_extract (h : DatapathStart s 2#2) (h5 : s.n.toNat % 5 = 0) (m : Memory) (v : BitVec 40)
    {i p y : Nat} (hp : p < outCap s) (hy : y < 8) :
    coreStep (base32EncoderAt s m (shiftSymbol^[y] v) i p 5 y) =
      .next (base32EncoderAt s (Memory.write m p (b32Lut (groupSymbol v y))) (shiftSymbol^[y + 1] v) i (p + 1)
        (if y = 7 then 0 else 5) (if y = 7 then 0 else y + 1)) := by
  have ep : (BitVec.ofNat 18 p).toNat = p := outPtr_ofNat hp.le
  rw [coreStep_base32EncoderAt h,
    base32EncoderStep_extract (s := base32EncoderAt s m (shiftSymbol^[y] v) i p 5 y) h5 rfl (by simp only [ep]; exact hp),
    symbolOut, countSymbol_ofNat _ hy rfl, topSymbol_shiftSymbol_iterate v hy, Function.iterate_succ_apply']
  simp only [ep, ← BitVec.ofNat_add]
  split <;> rfl

/-- The first `y` extractions of a group, before its last one (R167). -/
theorem coreRun_base32Extracts (h : DatapathStart s 2#2) (h5 : s.n.toNat % 5 = 0) {m0 m : Memory} {out : List Byte}
    (hm : StoredOver m0 out m) (v : BitVec 40) {i p y : Nat} (hout : p = out.length) (hp : p + y < outCap s) (hy : y < 8) :
    ∃ m', StoredOver m0 (out ++ groupStart v y) m' ∧
      coreRun y (base32EncoderAt s m v i p 5 0) = .next (base32EncoderAt s m' (shiftSymbol^[y] v) i (p + y) 5 y) := by
  induction y with
  | zero => exact ⟨m, by simpa [groupStart] using hm, rfl⟩
  | succ y ih =>
    obtain ⟨m', hm', hrun⟩ := ih (by omega) (by omega)
    have hstep := coreStep_base32EncoderAt_extract h h5 m' v (i := i) (p := p + y) (y := y) (by omega) (by omega)
    rw [if_neg (by omega), if_neg (by omega)] at hstep
    refine ⟨_, ?_, coreRun_snoc hrun hstep⟩
    rw [groupStart_succ, ← List.append_assoc]
    exact hm'.write (by simp [hout, groupStart]) _

/-- A whole group: five loads and eight extractions (R167). -/
theorem coreRun_base32Group (h : DatapathStart s 2#2) (h5 : s.n.toNat % 5 = 0) {m : Memory} {out : List Byte} {g : Nat}
    (hm : StoredOver s.outBuf out m) (x : BitVec 40) (hout : 8 * g = out.length) (hg : 5 * (g + 1) ≤ s.n.toNat)
    (hin : InputWritten s (5 * (g + 1))) :
    ∃ m' x', StoredOver s.outBuf (out ++ groupChars (sr40Loaded s x (5 * g) 5)) m' ∧
      coreRun 13 (base32EncoderAt s m x (5 * g) (8 * g) 0 0) =
        .next (base32EncoderAt s m' x' (5 * (g + 1)) (8 * (g + 1)) 0 0) := by
  have hfit := BitVec.le_def.mp h.fits
  have hroom : 8 * g + 7 < outCap s := by rw [outCap]; omega
  generalize hv : sr40Loaded s x (5 * g) 5 = v
  have hload := coreRun_base32Loads h h5 m x (i := 5 * g) (p := 8 * g) (j := 5) le_rfl hg hin
  obtain ⟨m', hm', hrun⟩ := coreRun_base32Extracts h h5 hm v (i := 5 * g + 5) hout hroom (by omega)
  have hlast := coreStep_base32EncoderAt_extract h h5 m' v (i := 5 * g + 5) (p := 8 * g + 7) (y := 7) hroom (by omega)
  rw [if_pos rfl, if_pos rfl] at hlast
  rw [hv] at hload
  refine ⟨_, _, ?_, coreRun_trans hload (coreRun_snoc hrun hlast)⟩
  have hwrite := hm'.write (p := 8 * g + 7) (by simp [← hout, groupStart]) (b32Lut (groupSymbol v 7))
  rwa [List.append_assoc, ← groupStart_succ] at hwrite

/-- The characters of one more group (R161). -/
theorem base32Groups_inputBytes_succ (s : State) (x : BitVec 40) (g : Nat) :
    base32Groups (inputBytes s (5 * (g + 1))) =
      base32Groups (inputBytes s (5 * g)) ++ groupChars (sr40Loaded s x (5 * g) 5) := by
  have hbytes : inputBytes s (5 * (g + 1)) = inputBytes s (5 * g) ++ [inValue s (5 * g), inValue s (5 * g + 1),
      inValue s (5 * g + 2), inValue s (5 * g + 3), inValue s (5 * g + 4)] := by
    simp only [Nat.mul_succ, inputBytes_succ, List.append_assoc]
    rfl
  rw [hbytes, base32Groups_append g _ _ (by simp), sr40Loaded_group]
  simp [base32Groups]

theorem base32Groups_inputBytes_length (s : State) (g : Nat) : (base32Groups (inputBytes s (5 * g))).length = 8 * g := by
  induction g with
  | zero => rfl
  | succ g ih => rw [base32Groups_inputBytes_succ s 0#40, List.length_append, ih, groupChars_length]; rfl

/-- base32_encoder after `g` groups (R167). -/
theorem coreRun_base32Encoder (h : DatapathStart s 2#2) (hl : s.loads = 0#3) (hy : s.syms = 0#4) (h5 : s.n.toNat % 5 = 0)
    {g : Nat} (hg : 5 * g ≤ s.n.toNat) (hin : InputWritten s (5 * g)) :
    ∃ m x, StoredOver s.outBuf (base32Groups (inputBytes s (5 * g))) m ∧
      coreRun (13 * g) s = .next (base32EncoderAt s m x (5 * g) (8 * g) 0 0) := by
  induction g with
  | zero => exact ⟨s.outBuf, s.sr40, storedOver_nil _, by rw [base32EncoderAt_zero h hl hy, coreRun_zero]⟩
  | succ g ih =>
    obtain ⟨m, x, hm, hrun⟩ := ih (by omega) fun i hi => hin i (by omega)
    obtain ⟨m', x', hm', hgroup⟩ :=
      coreRun_base32Group h h5 hm x (base32Groups_inputBytes_length s g).symm hg hin
    exact ⟨m', x', by rwa [base32Groups_inputBytes_succ s x], coreRun_trans hrun hgroup⟩

end Sys2Proof.Machine

/-! An accepted command reaches the outcome of its functional definition, within the bound of R107 (O23, O35). -/

namespace Sys2Proof.Machine

variable {s t : State}

/-! ### What an ended command shows -/

/-- The block shows how a command of code `op` ended (R106, R200): STATUS, OUT_LEN and the defined bytes of OUT. -/
def ShowsOutcome (t : State) (op : BitVec 2) : CmdOutcome → Prop
  | .done seq =>
    t.status = { state := .done, errCode := .none, errInfo := 0#8, op := op } ∧ t.outLen.toNat = seq.length ∧
      ∀ j, outDefined t j = seq[j]?
  | .error e info =>
    t.status = { state := .error, errCode := e, errInfo := info, op := op } ∧ t.outLen = 0#18 ∧
      ∀ j, outDefined t j = none

theorem ShowsOutcome.ended {op : BitVec 2} {o : CmdOutcome} (h : ShowsOutcome t op o) :
    t.status.state = .done ∨ t.status.state = .error := by
  cases o with
  | done seq => obtain ⟨hs, -⟩ := h; simp [hs]
  | error e info => obtain ⟨hs, -⟩ := h; simp [hs]

theorem ShowsOutcome.not_busy {op : BitVec 2} {o : CmdOutcome} (h : ShowsOutcome t op o) : t.status.state ≠ .busy := by
  rcases h.ended with hs | hs <;> simp [hs]

/-- Completion shows the bytes stored from OUT[0] to OUT_PTR (R106). -/
theorem showsOutcome_complete {m0 : Memory} {out : List Byte} (hlen : s.outPtr.toNat = out.length)
    (hm : StoredOver m0 out s.outBuf) : ShowsOutcome (complete s) s.status.op (.done out) := by
  refine ⟨rfl, hlen, fun j => ?_⟩
  by_cases hj : j < out.length
  · rw [outDefined_of_done rfl (by rwa [complete_outLen, hlen])]
    exact hm.read_of_lt hj
  · rw [outDefined_eq_none (.inr (by rw [complete_outLen, hlen]; omega)), List.getElem?_eq_none (by omega)]

/-- Error entry shows the error, and no byte of OUT (R200). -/
theorem showsOutcome_raise (e : ErrCode) (info : Byte) (hl : s.outLen = 0#18) :
    ShowsOutcome (raise e info s) s.status.op (.error e info) :=
  ⟨rfl, hl, fun _ => outDefined_eq_none (.inl (by simp))⟩

/-! ### The units -/

/-- hex_encoder ends with hexEncode of the input (R121, R124). -/
theorem hexEncoder_outcome (h : DatapathStart s 0#2) (hin : InputWritten s s.n.toNat) :
    ∃ t, coreRun (s.n.toNat + 1) s = .next t ∧
      ShowsOutcome t s.status.op (.done (hexEncode (inputBytes s s.n.toNat))) := by
  obtain ⟨m, hm, hrun⟩ := coreRun_hexEncoder h le_rfl hin
  have hfit := BitVec.le_def.mp h.fits
  have hend : ¬ BitVec.ofNat 17 s.n.toNat < s.n := by simp
  have hstep := (coreStep_hexEncoderAt h m s.n.toNat).trans (hexEncoderStep_end hend)
  refine ⟨_, coreRun_snoc hrun hstep, showsOutcome_complete (s := hexEncoderAt s m s.n.toNat) ?_ hm⟩
  rw [hexEncode_length, inputBytes_length]
  exact outPtr_ofNat (s := s) (by rw [outCap]; omega)

/-- The last character of an odd input is not consumed (R144). -/
theorem hexDecode_of_consumed {n : Nat} {out : List Byte} (h : hexDecode (inputBytes s (consumed n)) = .done out) :
    hexDecode (inputBytes s n) = .done out := by
  rcases Nat.mod_two_eq_zero_or_one n with heven | hodd
  · rwa [consumed, Nat.mul_div_cancel' (Nat.dvd_of_mod_eq_zero heven)] at h
  · have hn : n = consumed n + 1 := by unfold consumed; omega
    rw [hn, inputBytes_succ]
    exact hexDecode_append_odd (by simp [consumed]) h _

/-- hex_decoder on consumed pairs without an invalid character ends with their bytes (R141, R144, R146). -/
theorem hexDecoder_outcome_valid (h : DatapathStart s 1#2) (hh : s.half = false)
    (hin : InputWritten s (consumed s.n.toNat)) (hv : ∀ i < consumed s.n.toNat, (decLut (inValue s i)).isSome = true) :
    ∃ t, coreRun (consumed s.n.toNat + 1) s = .next t ∧
      ShowsOutcome t s.status.op (hexDecode (inputBytes s s.n.toNat)) := by
  obtain ⟨m, p, out, hrun, ⟨hdec, hlen, hm, -⟩⟩ := coreRun_hexDecoder h hh le_rfl hin hv
  have hn := consumed_le s.n.toNat
  have hfit := BitVec.le_def.mp h.fits
  have hend : ¬ (hexDecoderAt s m p (consumed s.n.toNat)).idx.toNat < consumed s.n.toNat := by
    rw [idx_ofNat hn]; omega
  have hstep := (coreStep_hexDecoderAt h m p _).trans (hexDecoderStep_end hend)
  have hpairs : consumed s.n.toNat / 2 * 2 = consumed s.n.toNat := by unfold consumed; omega
  rw [Nat.mul_comm, hpairs] at hdec
  rw [hexDecode_of_consumed hdec]
  refine ⟨_, coreRun_snoc hrun hstep, showsOutcome_complete (s := hexDecoderAt s m p (consumed s.n.toNat)) ?_ hm⟩
  rw [hlen]
  exact outPtr_ofNat (s := s) (by rw [outCap]; omega)

/-- hex_decoder ends at the lowest invalid character of a consumed pair, with that character (R145, R146). -/
theorem hexDecoder_outcome_invalid (h : DatapathStart s 1#2) (hh : s.half = false) (hl : s.outLen = 0#18) {i : Nat}
    (hi : i < consumed s.n.toNat) (hin : InputWritten s (i + 1)) (hbad : decLut (inValue s i) = none)
    (hv : ∀ k < i, (decLut (inValue s k)).isSome = true) :
    ∃ t, coreRun (i + 1) s = .next t ∧ ShowsOutcome t s.status.op (hexDecode (inputBytes s s.n.toNat)) := by
  obtain ⟨m, p, out, hrun, -⟩ := coreRun_hexDecoder h hh hi.le (fun k hk => hin k (by omega)) hv
  obtain ⟨hc, hb⟩ := hin.read (Nat.lt_succ_self i)
  have hn := consumed_le s.n.toNat
  have ei := idx_ofNat (k := i) (n := s.n) (by omega)
  have hstep : coreStep (hexDecoderAt s m p i) = .next (raise .invalidCharacter (inValue s i) (hexDecoderAt s m p i)) := by
    rw [coreStep_hexDecoderAt h]
    refine hexDecoderStep_invalid ?_ ?_ ?_ hbad <;> simpa only [ei]
  have hout : hexDecode (inputBytes s s.n.toNat) = .error .invalidCharacter (inValue s i) := by
    refine hexDecodeFrom_invalid (i := i) (by simpa [consumed] using hi) ?_ hbad fun k hk d hd => ?_
    · rw [getElem?_inputBytes, if_pos (by omega)]
    · rw [getElem?_inputBytes, if_pos (by omega)] at hd
      cases hd
      exact hv k hk
  rw [hout]
  exact ⟨_, coreRun_snoc hrun hstep, showsOutcome_raise (s := hexDecoderAt s m p i) _ _ hl⟩

/-- hex_decoder ends with hexDecode of the input (R141, R146). -/
theorem hexDecoder_outcome (h : DatapathStart s 1#2) (hh : s.half = false) (hl : s.outLen = 0#18)
    (hin : InputWritten s s.n.toNat) :
    ∃ k ≤ s.n.toNat, ∃ t, coreRun (k + 1) s = .next t ∧
      ShowsOutcome t s.status.op (hexDecode (inputBytes s s.n.toNat)) := by
  have hn := consumed_le s.n.toNat
  by_cases hv : ∃ i, i < consumed s.n.toNat ∧ decLut (inValue s i) = none
  · obtain ⟨hi, hbad⟩ := Nat.find_spec hv
    refine ⟨_, by omega, hexDecoder_outcome_invalid h hh hl hi (fun k hk => hin k (by omega)) hbad fun k hk => ?_⟩
    by_contra hk'
    exact Nat.find_min hv hk ⟨by omega, by simpa using hk'⟩
  · refine ⟨_, hn, hexDecoder_outcome_valid h hh (fun k hk => hin k (by omega)) fun i hi => ?_⟩
    by_contra hi'
    exact hv ⟨i, hi, by simpa using hi'⟩

/-- base32_encoder ends with base32Encode of the input (R161, R165, R166). -/
theorem base32Encoder_outcome (h : DatapathStart s 2#2) (hl : s.loads = 0#3) (hy : s.syms = 0#4) (hlen : s.outLen = 0#18)
    (hin : InputWritten s s.n.toNat) :
    ∃ k ≤ 13 * (s.n.toNat / 5), ∃ t, coreRun (k + 1) s = .next t ∧
      ShowsOutcome t s.status.op (base32Encode (inputBytes s s.n.toNat)) := by
  rw [base32Encode, inputBytes_length]
  by_cases h5 : s.n.toNat % 5 = 0
  · have hgroups : 5 * (s.n.toNat / 5) = s.n.toNat := by omega
    have hfit := BitVec.le_def.mp h.fits
    obtain ⟨m, x, hm, hrun⟩ := coreRun_base32Encoder h hl hy h5 hgroups.le (hgroups.symm ▸ hin)
    have hm' := base32Groups_inputBytes_length s (s.n.toNat / 5)
    rw [hgroups] at hrun hm hm'
    have hend : ¬ (0#3 < 5#3 ∧ BitVec.ofNat 17 s.n.toNat < s.n) := by simp
    have hstep := (coreStep_base32EncoderAt h m x s.n.toNat (8 * (s.n.toNat / 5)) 0 0).trans
      (base32EncoderStep_end h5 hend (show 0#3 ≠ 5#3 by decide))
    rw [if_neg (not_not.mpr h5)]
    refine ⟨_, le_rfl, _, coreRun_snoc hrun hstep, showsOutcome_complete (s := base32EncoderAt s m x _ _ 0 0) ?_ hm⟩
    rw [hm']
    exact outPtr_ofNat (s := s) (by rw [outCap]; omega)
  · rw [if_pos h5]
    have hstep := (coreStep_base32Encoder h.busy h.run h.curOp).trans (base32EncoderStep_length h5)
    exact ⟨0, Nat.zero_le _, _, coreRun_step hstep, showsOutcome_raise _ _ hlen⟩

/-! ### The command -/

/-- The unit that the accepted word selects starts after a passed CHECK (R102, R105). -/
theorem datapathStart_checked (w : Word) (hfit : s.inLen ≤ s.cap) :
    DatapathStart (checked (accept w s)) (w.extractLsb' 0 2) :=
  ⟨rfl, rfl, rfl, rfl, rfl, hfit⟩

/-- Core steps enough for the datapath of a word on `n` input bytes, without CHECK and the last step (R107). -/
def datapathBound (w : Word) (n : Nat) : Nat := if w.extractLsb' 0 2 = 2#2 then 13 * (n / 5) else n

/-- The checks pass for a legal word and a length that fits (R205). -/
theorem check_eq_none_iff {ill : Bool} {len cap : BitVec 17} : check ill len cap = none ↔ ill = false ∧ len ≤ cap := by
  cases ill <;> simp [check]

theorem checkStep_of_check {e : ErrCode} {info : Byte} (h : check s.ill s.n s.cap = some (e, info)) :
    checkStep s = raise e info s := by
  rw [checkStep, h]

/-- After a passed CHECK the unit ends with the functional definition of its operation (R108). -/
theorem datapath_outcome {w : Word} (hw : illegalWord w = false) (hfit : s.inLen ≤ s.cap) (hin : InputWritten s s.inLen.toNat) :
    ∃ k ≤ datapathBound w s.inLen.toNat, ∃ t, coreRun (k + 1) (checked (accept w s)) = .next t ∧
      ShowsOutcome t (w.extractLsb' 0 2) (execute s.cap w s.inLen (inputBytes s s.inLen.toNat)) := by
  have h := datapathStart_checked w hfit
  have hcheck : check (illegalWord w) s.inLen s.cap = none := check_eq_none_iff.mpr ⟨hw, hfit⟩
  simp only [execute, hcheck, datapathBound]
  by_cases h0 : w.extractLsb' 0 2 = 0#2
  · rw [if_pos h0, if_neg (by simp [h0])]
    exact ⟨_, le_rfl, hexEncoder_outcome (h0 ▸ h) hin⟩
  by_cases h1 : w.extractLsb' 0 2 = 1#2
  · rw [if_neg h0, if_pos h1, if_neg (by simp [h1])]
    exact hexDecoder_outcome (h1 ▸ h) rfl rfl hin
  have h2 : w.extractLsb' 0 2 = 2#2 := by
    have h3 : w.extractLsb' 0 2 ≠ 3#2 := fun h3 => by simp [illegalWord_of_op3 h3] at hw
    bv_omega
  rw [if_neg h0, if_neg h1, if_pos h2]
  exact base32Encoder_outcome (h2 ▸ h) rfl rfl rfl hin

/-- An accepted word ends with its functional outcome, within the bound of R107: a failed check is the error that `execute`
gives, after one step. -/
theorem accept_outcome (w : Word) (hin : InputReady s) :
    ∃ k ≤ datapathBound w s.inLen.toNat + 2, ∃ t, coreRun k (accept w s) = .next t ∧
      ShowsOutcome t (w.extractLsb' 0 2) (execute s.cap w s.inLen (inputBytes s s.inLen.toNat)) := by
  have hstep : coreStep (accept w s) = .next (checkStep (accept w s)) := coreStep_check rfl rfl
  cases hc : check (illegalWord w) s.inLen s.cap with
  | some err =>
    obtain ⟨e, info⟩ := err
    have hout : execute s.cap w s.inLen (inputBytes s s.inLen.toNat) = .error e info := by rw [execute, hc]
    rw [checkStep_of_check hc] at hstep
    exact ⟨1, by omega, _, coreRun_step hstep, hout ▸ showsOutcome_raise _ _ rfl⟩
  | none =>
    obtain ⟨hw, hfit⟩ := check_eq_none_iff.mp hc
    obtain ⟨k, hk, t, hrun, hshow⟩ := datapath_outcome hw hfit (hin hfit)
    rw [checkStep_pass hw hfit] at hstep
    exact ⟨k + 2, by omega, t, by rw [coreRun_step hstep, hrun], hshow⟩

/-- Settles O23: the end is for good, and no core step touches IN and IN_LEN. -/
theorem commandReachesItsFunctionalOutcome : Obligations.CommandReachesItsFunctionalOutcome := by
  intro s w _ hin
  obtain ⟨k, -, t, hrun, hshow⟩ := accept_outcome w hin
  obtain ⟨⟨hbuf, hlen, -⟩, -⟩ := coreRun_frame hrun
  exact ⟨k, t, fun m hm => coreRun_stable hrun hshow.not_busy hm, fun seq h => by rwa [h] at hshow,
    fun e info h => by rwa [h] at hshow, hbuf, hlen⟩

/-- Settles O35: the command has ended at the bound, and the steps after its end change nothing. -/
theorem commandEndsWithinItsBound : Obligations.CommandEndsWithinItsBound := by
  intro s w n _ hin hn
  obtain ⟨k, hk, t, hrun, hshow⟩ := accept_outcome w hin
  rw [← ite_add, ← datapathBound] at hn
  exact ⟨t, coreRun_stable hrun hshow.not_busy (hk.trans hn), hshow.ended⟩

end Sys2Proof.Machine

/-! hex_encoder: its function by length, index and inverse (O50, O51, O55), its step and its run (O17, O20), and the command
ENCODE_HEX (O24). -/

namespace Sys2Proof.Machine

/-! ### The function -/

/-- Every code of HEX_LUT is a digit or an upper-case letter A to F (R30). -/
theorem hexLut_range : ∀ k : Nibble,
    (0x30#8 ≤ hexLut k ∧ hexLut k ≤ 0x39#8) ∨ (0x41#8 ≤ hexLut k ∧ hexLut k ≤ 0x46#8) := by decide

/-- The encoder puts out nothing but codes of HEX_LUT (R123). -/
theorem eq_hexLut_of_mem_hexEncode {s : List Byte} {c : Byte} (h : c ∈ hexEncode s) : ∃ k, c = hexLut k := by
  induction s with
  | nil => cases h
  | cons b s ih =>
    rcases List.mem_cons.mp h with rfl | h
    · exact ⟨_, rfl⟩
    rcases List.mem_cons.mp h with rfl | h
    · exact ⟨_, rfl⟩
    · exact ih h

/-- Settles O50: two characters a byte, each a code of HEX_LUT. -/
theorem hexEncodeLengthAndAlphabet : Obligations.HexEncodeLengthAndAlphabet := by
  refine fun s => ⟨hexEncode_length s, fun c hc => ?_⟩
  obtain ⟨k, rfl⟩ := eq_hexLut_of_mem_hexEncode hc
  exact hexLut_range k

/-- Settles O51, by induction on the sequence: each byte ahead moves the index on by two characters. -/
theorem hexEncodeByIndex : Obligations.HexEncodeByIndex := by
  intro s i b h
  induction s generalizing i with
  | nil => cases h
  | cons a s ih =>
    cases i with
    | zero => cases h; exact ⟨rfl, rfl⟩
    | succ i => exact ih i h

/-- Decoding an encoding adds its bytes to those already out (R128): DEC_LUT inverts HEX_LUT, and the two nibbles join to the
byte. -/
theorem hexDecodeFrom_hexEncode (out s : List Byte) : hexDecodeFrom out (hexEncode s) = .done (out ++ s) := by
  induction s generalizing out with
  | nil => simp [hexEncode, hexDecodeFrom]
  | cons b s ih => simp [hexEncode, hexDecodeFrom, decLut_hexLut, joinNibbles_nibbles, ih]

/-- Settles O55: hexDecode is a left inverse of hexEncode. -/
theorem hexRoundTrip : Obligations.HexRoundTrip := by
  have hinv (s : List Byte) : hexDecode (hexEncode s) = .done s := hexDecodeFrom_hexEncode [] s
  refine ⟨hinv, fun s t h => CmdOutcome.done.inj ?_⟩
  rw [← hinv s, ← hinv t, h]

/-! ### The unit -/

variable {s : State}

/-- Settles O17: the invariant gives the byte its index and both characters their room, and ties OUT_PTR to IDX. -/
theorem hexEncoderStepRule : Obligations.HexEncoderStepRule := by
  intro s h hb hp ho
  have run := (h.busy hb).running hp
  have henc := run.hexEnc ho
  rw [coreStep_hexEncoder hb hp ho]
  refine ⟨fun hlt b hread => ?_, fun hend => ?_⟩
  · obtain ⟨h1, h2⟩ := henc.room run.fits hlt
    have hi : s.idx.toNat < s.cap.toNat := (BitVec.lt_def.mp hlt).trans_le (BitVec.le_def.mp run.fits)
    rw [hexEncoderStep_byte hlt hi hread h1 h2]
    simp only [hexEncoded, outPtr_succ h1, BitVec.add_assoc]
    rfl
  · obtain ⟨-, hptr⟩ := henc
    exact ⟨hend ▸ hptr, hexEncoderStep_end (by simp [hend])⟩

/-- Above the stored bytes OUT is as it was. -/
theorem StoredOver.read_of_le {m0 m : Memory} {out : List Byte} (h : StoredOver m0 out m) {j : Nat} (hj : out.length ≤ j) :
    Memory.read m j = Memory.read m0 j := by
  rw [h j, List.getElem?_eq_none hj, Option.none_or]

/-- Settles O20: the state after `k` bytes is `hexEncoderAt`, whose cursors do not wrap. -/
theorem hexEncoderStepEquivalence : Obligations.HexEncoderStepEquivalence := by
  intro s k hb hp ho hi hptr hfit hk hin
  obtain ⟨m, hm, hrun⟩ := coreRun_hexEncoder ⟨hb, hp, ho, hi, hptr, hfit⟩ hk hin
  have hfit := BitVec.le_def.mp hfit
  have hlen : (hexEncode (inputBytes s k)).length = 2 * k := by rw [hexEncode_length, inputBytes_length]
  exact ⟨_, hrun, rfl, idx_ofNat hk, outPtr_ofNat (s := s) (by rw [outCap]; omega),
    fun j hj => hm.read_of_lt (hlen ▸ hj), fun j hj => hm.read_of_le (hlen ▸ hj)⟩

/-- hex_encoder completes after its last byte (R124, R125). -/
theorem coreRun_hexEncoder_complete (h : DatapathStart s 0#2) (hin : InputWritten s s.n.toNat) :
    ∃ m, StoredOver s.outBuf (hexEncode (inputBytes s s.n.toNat)) m ∧
      coreRun (s.n.toNat + 1) s = .next (complete (hexEncoderAt s m s.n.toNat)) := by
  obtain ⟨m, hm, hrun⟩ := coreRun_hexEncoder h le_rfl hin
  have hend : ¬ BitVec.ofNat 17 s.n.toNat < s.n := by simp
  exact ⟨m, hm, coreRun_snoc hrun ((coreStep_hexEncoderAt h m s.n.toNat).trans (hexEncoderStep_end hend))⟩

/-! ### The command -/

/-- ENCODE_HEX accepted on an input that fits completes after CHECK, a step for each byte, and one more (R107, R120). -/
theorem coreRun_accept_encodeHex (hfit : s.inLen ≤ s.cap) (hin : InputWritten s s.inLen.toNat) :
    ∃ m, StoredOver s.outBuf (hexEncode (inputBytes s s.inLen.toNat)) m ∧
      coreRun (s.inLen.toNat + 2) (accept (encode .encodeHex) s) =
        .next (complete (hexEncoderAt (checked (accept (encode .encodeHex) s)) m s.inLen.toNat)) := by
  obtain ⟨m, hm, hrun⟩ := coreRun_hexEncoder_complete (datapathStart_checked (encode .encodeHex) hfit) hin
  have hcheck : coreStep (accept (encode .encodeHex) s) = .next (checked (accept (encode .encodeHex) s)) := by
    rw [coreStep_check rfl rfl, checkStep_pass rfl hfit]
  exact ⟨m, hm, (coreRun_step hcheck).trans hrun⟩

/-- Settles O24: the command has completed within the core steps that follow, and the rest change nothing. -/
theorem encodeHexResult : Obligations.EncodeHexResult := by
  intro s hb hfit hin hgap
  obtain ⟨m, hm, hrun⟩ := coreRun_accept_encodeHex (s := { s with gap := 0 }) hfit hin
  have hle := BitVec.le_def.mp hfit
  have hidx : BitVec.ofNat 17 s.inLen.toNat = s.inLen := by simp
  have hptr : (BitVec.ofNat 18 (2 * s.inLen.toNat)).toNat = 2 * s.inLen.toNat :=
    outPtr_ofNat (s := s) (by rw [outCap]; omega)
  have hlen : (hexEncode (inputBytes s s.inLen.toNat)).length = 2 * s.inLen.toNat := by
    rw [hexEncode_length, inputBytes_length]
  rw [exec_of_not_busy _ hb]
  refine ⟨_, coreRun_stable hrun (by simp) hgap, rfl, hptr, fun j _ => ?_, fun j hj => hm.read_of_le (hlen ▸ hj),
    ⟨rfl, rfl, rfl, rfl, rfl, rfl, rfl⟩, rfl, rfl, rfl, hidx, rfl, rfl, rfl, rfl, rfl, rfl, rfl⟩
  obtain ⟨-, -, hout⟩ := showsOutcome_complete (s := hexEncoderAt (checked (accept (encode .encodeHex) s)) m s.inLen.toNat)
    (hptr.trans hlen.symm) hm
  exact hout j

end Sys2Proof.Machine

/-! hex_decoder: its function on odd texts, invalid bytes, letter case and as an inverse (O52, O53, O54, O56), its step and its
run (O18, O21), and the command DECODE_HEX (O25, O26). -/

namespace Sys2Proof.Machine

/-! ### The function -/

/-- A character after whole pairs leaves the outcome alone, an error among them (R144). -/
theorem hexDecodeFrom_concat {t : List Byte} (ht : t.length % 2 = 0) (o : List Byte) (c : Byte) :
    hexDecodeFrom o (t ++ [c]) = hexDecodeFrom o t := by
  induction o, t using hexDecodeFrom.induct with
  | case1 o => rfl
  | case2 o a => simp at ht
  | case3 o a b t ha => simp [hexDecodeFrom, ha]
  | case4 o a b t hi ha hb => simp [hexDecodeFrom, ha, hb]
  | case5 o a b t hi ha lo hb ih =>
    simp only [List.cons_append, hexDecodeFrom, ha, hb]
    exact ih (by simp at ht; omega)

/-- Settles O52: the induction goes along the pairs of the text. -/
theorem oddTextDropsItsLastCharacter : Obligations.OddTextDropsItsLastCharacter :=
  fun _ c ht => hexDecodeFrom_concat ht [] c

/-- The upper-case form of a hex digit (R148). -/
def upperHex (c : Byte) : Byte := if 0x61#8 ≤ c ∧ c ≤ 0x66#8 then c - 0x20#8 else c

/-- HEX_LUT gives a hex digit's nibble back as its upper-case form (R30, R31). -/
theorem hexLut_of_decLut : ∀ c : Byte, ∀ v ∈ decLut c, hexLut v = upperHex c := by decide

/-- A pair in front is two more consumed characters (R142). -/
theorem consumed_add_two (n : Nat) : consumed (n + 2) = consumed n + 2 := by unfold consumed; omega

/-- Consumed hex digits decode to the bytes whose encoding they are in upper case (R141, R148). -/
theorem hexDecodeFrom_valid {o t : List Byte} (hv : ∀ c ∈ t.take (consumed t.length), (decLut c).isSome = true) :
    ∃ s, hexDecodeFrom o t = .done (o ++ s) ∧ hexEncode s = (t.take (consumed t.length)).map upperHex := by
  induction o, t using hexDecodeFrom.induct with
  | case1 o => exact ⟨[], by simp [hexDecodeFrom], rfl⟩
  | case2 o a => exact ⟨[], by simp [hexDecodeFrom], by simp [hexEncode, consumed]⟩
  | case3 o a b t ha => simpa [ha] using hv a (by simp [consumed_add_two])
  | case4 o a b t hi ha hb => simpa [hb] using hv b (by simp [consumed_add_two])
  | case5 o a b t hi ha lo hb ih =>
    obtain ⟨s, hs, henc⟩ := ih fun c hc => hv c (by simp [consumed_add_two, hc])
    obtain ⟨hhi, hlo⟩ := nibbles_joinNibbles hi lo
    refine ⟨joinNibbles hi lo :: s, by simp [hexDecodeFrom, ha, hb, hs], ?_⟩
    simp [hexEncode, hhi, hlo, henc, hexLut_of_decLut a hi ha, hexLut_of_decLut b lo hb, consumed_add_two]

/-- Settles O53: the length is that of the encoding, which is as long as the consumed characters. -/
theorem lowestInvalidByteIsReported : Obligations.LowestInvalidByteIsReported := by
  refine fun t => ⟨fun i c hi hc hbad hv => hexDecodeFrom_invalid hi hc hbad fun k hk d => hv k d hk, fun hv => ?_⟩
  obtain ⟨s, hs, henc⟩ := hexDecodeFrom_valid (o := []) (t := t) fun c hc => by
    obtain ⟨k, hk, rfl⟩ := List.mem_take_iff_getElem.mp hc
    obtain ⟨hk, hlt⟩ := lt_min_iff.mp hk
    exact hv k _ hk (List.getElem?_eq_getElem hlt)
  refine ⟨s, hs, ?_⟩
  have hlen := congrArg List.length henc
  have hle := consumed_le t.length
  rw [hexEncode_length, List.length_map, List.length_take, Nat.min_eq_left hle, consumed] at hlen
  omega

/-- Settles O56: of an even text every character is consumed. -/
theorem encodeAfterDecodeIsUpperCase : Obligations.EncodeAfterDecodeIsUpperCase := by
  intro t ht hv
  have hall : t.take (consumed t.length) = t := List.take_of_length_le (by unfold consumed; omega)
  obtain ⟨s, hs, henc⟩ := hexDecodeFrom_valid (o := []) (t := t) (by rwa [hall])
  rw [hall] at henc
  exact ⟨s, hs, henc⟩

/-- DEC_LUT does not look at the case of a letter, be it a hex digit or not (R31). -/
theorem decLut_swapCase : ∀ a : Byte, (0x41#8 ≤ a ∧ a ≤ 0x5A#8) ∨ (0x61#8 ≤ a ∧ a ≤ 0x7A#8) →
    decLut (a ^^^ 0x20#8) = decLut a := by decide

/-- The outcomes of two texts agree: the same bytes, or the same error, each with its own byte at one index (R143). -/
inductive SameDecoding (t u : List Byte) : CmdOutcome → CmdOutcome → Prop where
  | done (out : List Byte) : SameDecoding t u (.done out) (.done out)
  | error (e : ErrCode) {i : Nat} {c d : Byte} (ht : t[i]? = some c) (hu : u[i]? = some d) :
    SameDecoding t u (.error e c) (.error e d)

theorem SameDecoding.after_pair {t u : List Byte} {x y : CmdOutcome} (h : SameDecoding t u x y) (a b a' b' : Byte) :
    SameDecoding (a :: b :: t) (a' :: b' :: u) x y := by
  cases h with
  | done out => exact .done out
  | error e ht hu => exact .error e (i := _ + 2) ht hu

/-- A decoding depends only on what DEC_LUT gives for the characters (R141, R143). -/
theorem sameDecoding_of_decLut_eq {t u : List Byte} (h : List.Forall₂ (fun a b => decLut b = decLut a) t u)
    (o : List Byte) : SameDecoding t u (hexDecodeFrom o t) (hexDecodeFrom o u) := by
  induction o, t using hexDecodeFrom.induct generalizing u with
  | case1 o => cases h; exact .done o
  | case2 o a =>
    obtain _ | ⟨-, h⟩ := h
    cases h
    exact .done o
  | case3 o a b t ha =>
    obtain _ | ⟨haa, _ | ⟨hbb, h⟩⟩ := h
    simp only [hexDecodeFrom, haa, ha]
    exact .error _ (i := 0) rfl rfl
  | case4 o a b t hi ha hb =>
    obtain _ | ⟨haa, _ | ⟨hbb, h⟩⟩ := h
    simp only [hexDecodeFrom, haa, ha, hbb, hb]
    exact .error _ (i := 1) rfl rfl
  | case5 o a b t hi ha lo hb ih =>
    obtain _ | ⟨haa, _ | ⟨hbb, h⟩⟩ := h
    simp only [hexDecodeFrom, haa, ha, hbb, hb]
    exact (ih h).after_pair _ _ _ _

/-- Settles O54: DEC_LUT gives the same for both texts, character by character. -/
theorem hexDecodeIgnoresCase : Obligations.HexDecodeIgnoresCase := by
  intro t u h
  have hdec : List.Forall₂ (fun a b => decLut b = decLut a) t u := by
    refine h.imp fun a b hab => ?_
    rcases hab with rfl | ⟨hletter, rfl⟩
    · rfl
    · exact decLut_swapCase a hletter
  have hsame : SameDecoding t u (hexDecode t) (hexDecode u) := sameDecoding_of_decLut_eq hdec []
  refine ⟨fun out hout => ?_, fun e c herr => ?_⟩
  · rw [hout] at hsame
    generalize hexDecode u = y at hsame ⊢
    cases hsame
    rfl
  · rw [herr] at hsame
    generalize hexDecode u = y at hsame ⊢
    cases hsame with
    | error _ ht hu => exact ⟨_, _, ht, hu, rfl⟩

/-! ### The unit -/

variable {s : State}

/-- Settles O18: the invariant gives the character its index and the byte its room, and ties OUT_PTR to IDX. -/
theorem hexDecoderStepRule : Obligations.HexDecoderStepRule := by
  intro s h hb hp ho
  have run := (h.busy hb).running hp
  have hdec := run.hexDec ho
  have hindex (hlt : s.idx.toNat < consumed s.n.toNat) : s.idx.toNat < s.cap.toNat :=
    (hlt.trans_le (consumed_le _)).trans_le (BitVec.le_def.mp run.fits)
  rw [coreStep_hexDecoder hb hp ho]
  refine ⟨fun hlt c hc hv => hexDecoderStep_invalid hlt (hindex hlt) hc hv,
    fun hlt c v hc hv hh => hexDecoderStep_high hlt (hindex hlt) hc hv hh,
    fun hlt c v hc hv hh => hexDecoderStep_low hlt (hindex hlt) hc hv hh (hdec.room run.fits hlt), fun hend => ?_⟩
  obtain ⟨-, hptr, -⟩ := hdec
  exact ⟨by omega, hexDecoderStep_end (by rw [hend, consumed]; omega)⟩

/-- Settles O21: the state after `k` characters is `hexDecoderAt`, whose cursors do not wrap. -/
theorem hexDecoderStepEquivalence : Obligations.HexDecoderStepEquivalence := by
  intro s k hb hp ho hi hptr hh hfit heven hk hin hv
  obtain ⟨m, p, out, hrun, hdec, hlen, hm, -⟩ :=
    coreRun_hexDecoder ⟨hb, hp, ho, hi, hptr, hfit⟩ hh (by unfold consumed; omega) hin hv
  have hfit := BitVec.le_def.mp hfit
  have hpairs : 2 * (k / 2) = k := by omega
  rw [hpairs] at hdec
  exact ⟨_, out, hrun, rfl, idx_ofNat hk, by simp [heven], outPtr_ofNat (s := s) (by rw [outCap]; omega), hdec,
    fun j hj => hm.read_of_lt (hlen ▸ hj), fun j hj => hm.read_of_le (hlen ▸ hj)⟩

/-- Half of the consumed characters are half of them all (R142). -/
theorem consumed_div_two (n : Nat) : consumed n / 2 = n / 2 := by unfold consumed; omega

/-- hex_decoder completes after the last consumed character, with the decoding of its input stored (R141, R146, R147). -/
theorem coreRun_hexDecoder_complete (h : DatapathStart s 1#2) (hh : s.half = false)
    (hin : InputWritten s (consumed s.n.toNat)) (hv : ∀ i < consumed s.n.toNat, (decLut (inValue s i)).isSome = true) :
    ∃ m p out, hexDecode (inputBytes s s.n.toNat) = .done out ∧ out.length = s.n.toNat / 2 ∧ StoredOver s.outBuf out m ∧
      coreRun (consumed s.n.toNat + 1) s = .next (complete (hexDecoderAt s m p (consumed s.n.toNat))) := by
  obtain ⟨m, p, out, hrun, hdec, hlen, hm, -⟩ := coreRun_hexDecoder h hh le_rfl hin hv
  have hend : ¬ (hexDecoderAt s m p (consumed s.n.toNat)).idx.toNat < consumed s.n.toNat := by
    rw [idx_ofNat (consumed_le _)]; omega
  rw [consumed_div_two] at hdec hlen
  exact ⟨m, p, out, hexDecode_of_consumed hdec, hlen, hm,
    coreRun_snoc hrun ((coreStep_hexDecoderAt h m p _).trans (hexDecoderStep_end hend))⟩

/-- hex_decoder raises INVALID_CHARACTER at the lowest invalid one of the consumed characters (R145, R146). -/
theorem coreRun_hexDecoder_invalid (h : DatapathStart s 1#2) (hh : s.half = false) {i : Nat}
    (hi : i < consumed s.n.toNat) (hin : InputWritten s (i + 1)) (hv : ∀ k < i, (decLut (inValue s k)).isSome = true)
    (hbad : decLut (inValue s i) = none) :
    ∃ m p out, HexDecoded s m p i out ∧
      coreRun (i + 1) s = .next (raise .invalidCharacter (inValue s i) (hexDecoderAt s m p i)) := by
  obtain ⟨m, p, out, hrun, hd⟩ := coreRun_hexDecoder h hh hi.le (fun k hk => hin k (by omega)) hv
  obtain ⟨hc, hb⟩ := hin.read (Nat.lt_succ_self i)
  have ei := idx_ofNat (hi.le.trans (consumed_le _))
  refine ⟨m, p, out, hd, coreRun_snoc hrun ((coreStep_hexDecoderAt h m p i).trans ?_)⟩
  refine hexDecoderStep_invalid ?_ ?_ ?_ hbad <;> simpa only [ei]

/-! ### The command -/

/-- hex_decoder as CHECK leaves it after DECODE_HEX is accepted, with no core step to follow yet (R102, R105). -/
abbrev decodeHexStart (s : State) : State := checked (accept (encode .decodeHex) { s with gap := 0 })

/-- DECODE_HEX on an input that fits is acceptance, the CHECK step and the steps of hex_decoder; once these have ended it, the
rest of the core steps change nothing (R105, R140). -/
theorem exec_decodeHex {k : Nat} {t : State} (hb : s.status.state ≠ .busy) (hfit : s.inLen ≤ s.cap)
    (hrun : coreRun k (decodeHexStart s) = .next t) (ht : t.status.state ≠ .busy) (hgap : k + 1 ≤ s.gap) :
    exec .decodeHex s = .next t := by
  have hcheck : coreStep (accept (encode .decodeHex) { s with gap := 0 }) = .next (decodeHexStart s) := by
    rw [coreStep_check rfl rfl, checkStep_pass rfl hfit]
  rw [exec_of_not_busy _ hb]
  exact coreRun_stable ((coreRun_step hcheck).trans hrun) ht hgap

/-- Settles O25: hex_decoder completes within the core steps that follow, with the decoding of its input stored. -/
theorem decodeHexResult : Obligations.DecodeHexResult := by
  intro s hb hfit hin hv hgap
  obtain ⟨m, p, out, hdec, hlen, hm, hrun⟩ := coreRun_hexDecoder_complete (s := decodeHexStart s)
    (datapathStart_checked (encode .decodeHex) hfit) rfl hin hv
  have hlen : out.length = s.inLen.toNat / 2 := hlen
  have hn := consumed_le s.inLen.toNat
  have hend : consumed s.inLen.toNat + 1 + 1 ≤ s.gap := by omega
  have hptr : (BitVec.ofNat 18 (consumed s.inLen.toNat / 2)).toNat = s.inLen.toNat / 2 := by
    have hle := BitVec.le_def.mp hfit
    rw [consumed_div_two]
    exact outPtr_ofNat (s := s) (by rw [outCap]; omega)
  obtain ⟨-, -, hout⟩ := showsOutcome_complete (s := hexDecoderAt (decodeHexStart s) m p (consumed s.inLen.toNat))
    (hptr.trans hlen.symm) hm
  exact ⟨_, out, exec_decodeHex hb hfit hrun (by simp) hend, rfl, hptr, hdec, fun j _ => hout j,
    fun j hj => hm.read_of_le (hlen ▸ hj), ⟨rfl, rfl, rfl, rfl, rfl, rfl, rfl⟩, rfl, rfl, rfl, idx_ofNat hn, rfl, rfl,
    by simp [consumed], rfl, rfl, rfl⟩

/-- Settles O26: hex_decoder raises the error at the character, after it has stored the bytes of the pairs before it. -/
theorem decodeHexInvalidCharacter : Obligations.DecodeHexInvalidCharacter := by
  intro s i hb hfit hi hin hv hbad hgap
  obtain ⟨m, p, out, ⟨-, hlen, hm, -⟩, hrun⟩ := coreRun_hexDecoder_invalid (s := decodeHexStart s)
    (datapathStart_checked (encode .decodeHex) hfit) rfl hi hin hv hbad
  obtain ⟨-, -, hout⟩ := showsOutcome_raise (s := hexDecoderAt (decodeHexStart s) m p i) .invalidCharacter (inValue s i) rfl
  have hn : i ≤ s.inLen.toNat := hi.le.trans (consumed_le _)
  exact ⟨_, exec_decodeHex hb hfit hrun (by simp) hgap, rfl, rfl, hout, fun j hj => hm.read_of_le (hlen ▸ hj),
    ⟨rfl, rfl, rfl, rfl, rfl, rfl, rfl⟩, rfl, rfl, rfl, idx_ofNat hn, rfl, rfl, rfl, rfl⟩

end Sys2Proof.Machine

/-! base32_encoder: its function by symbol, length and alphabet (O57, O58), its step and its run (O19, O22), and the command
ENCODE_BASE32 (O27, O28). -/

namespace Sys2Proof.Machine

/-! ### The function -/

/-- A symbol of a group is known by its place in the number that the five bytes make (R161). -/
theorem groupSymbol_groupValue_eq {a b c d e : Byte} {j : Nat} {k : Symbol}
    (h : ((((a.toNat * 256 + b.toNat) * 256 + c.toNat) * 256 + d.toNat) * 256 + e.toNat) / 2 ^ (35 - 5 * j) % 32 = k.toNat) :
    groupSymbol (groupValue a b c d e) j = k :=
  BitVec.eq_of_toNat_eq (by rw [groupSymbol_toNat, groupValue_toNat, h])

/-- Settles O57: in each row both sides are the same part of the group's number. -/
theorem base32SymbolTable : Obligations.Base32SymbolTable := by
  intro a b c d e
  refine ⟨?_, ?_, ?_, ?_, ?_, ?_, ?_, ?_⟩
  all_goals
    apply groupSymbol_groupValue_eq
    simp only [toNat_append', BitVec.extractLsb'_toNat, Nat.shiftRight_eq_div_pow]
    omega

/-- Every code of B32_LUT is an upper-case letter or a digit 2 to 7 (R32). -/
theorem b32Lut_range : ∀ k : Symbol,
    (0x41#8 ≤ b32Lut k ∧ b32Lut k ≤ 0x5A#8) ∨ (0x32#8 ≤ b32Lut k ∧ b32Lut k ≤ 0x37#8) := by decide

/-- The encoder puts out nothing but codes of B32_LUT (R164). -/
theorem eq_b32Lut_of_mem_base32Groups {s : List Byte} {c : Byte} (h : c ∈ base32Groups s) : ∃ k, c = b32Lut k := by
  induction s using base32Groups.induct with
  | case1 a b c d e s ih =>
    rcases List.mem_append.mp h with h | h
    · obtain ⟨j, -, rfl⟩ := List.mem_map.mp h
      exact ⟨_, rfl⟩
    · exact ih h
  | case2 s hs => simp [base32Groups] at h

/-- Eight characters for each group (R162). -/
theorem base32Groups_length (g : Nat) {s : List Byte} (h : s.length = 5 * g) : (base32Groups s).length = 8 * g := by
  induction g generalizing s with
  | zero => rw [List.length_eq_zero_iff.mp h]; rfl
  | succ g ih =>
    match s, h with
    | a :: b :: c :: d :: e :: s, h =>
      have hs : s.length = 5 * g := by simp at h; omega
      rw [base32Groups, List.length_append, groupChars_length, ih hs]
      omega

/-- Whole groups encode to their characters (R161). -/
theorem base32Encode_of_groups {s : List Byte} (h : s.length % 5 = 0) : base32Encode s = .done (base32Groups s) := by
  rw [base32Encode, if_neg (not_not.mpr h)]

/-- Settles O58: the characters of the groups, or the length check. -/
theorem base32LengthAndAlphabet : Obligations.Base32LengthAndAlphabet := by
  refine fun s => ⟨fun h => ⟨_, base32Encode_of_groups h, ?_, fun c hc => ?_⟩, fun h => if_pos h⟩
  · rw [base32Groups_length (s.length / 5) (by omega)]
    omega
  · obtain ⟨k, rfl⟩ := eq_b32Lut_of_mem_base32Groups hc
    exact b32Lut_range k

/-! ### The unit -/

variable {s t : State}

/-- Settles O19: the invariant gives the byte its index and the symbol its room, and ties LOADS and OUT_PTR to IDX. -/
theorem base32EncoderStepRule : Obligations.Base32EncoderStepRule := by
  intro s h hb hp ho
  have run := (h.busy hb).running hp
  have hinv := run.b32Enc ho
  rw [coreStep_base32Encoder hb hp ho]
  refine ⟨base32EncoderStep_length, fun h5 hl hlt b hread => ?_, fun h5 hl hy => ?_, fun h5 hl hy => ?_,
    fun h5 hl hend => ?_⟩
  · have hi : s.idx.toNat < s.cap.toNat := (BitVec.lt_def.mp hlt).trans_le (BitVec.le_def.mp run.fits)
    exact base32EncoderStep_load h5 hl hlt hi hread
  · rw [base32EncoderStep_extract h5 hl (hinv.room run.fits h5 hl), symbolOut, countSymbol, if_neg (by bv_omega)]
    rfl
  · rw [base32EncoderStep_extract h5 hl (hinv.room run.fits h5 hl), symbolOut, countSymbol, if_pos (by rw [hy]; rfl)]
    rfl
  · obtain ⟨-, -, hload, -⟩ := hinv
    obtain ⟨-, hidx, hptr⟩ := hload h5 hl
    rw [hend] at hidx hptr
    have hl0 : s.loads = 0#3 := BitVec.eq_of_toNat_eq (hidx.symm.trans h5)
    exact ⟨hl0, by omega, base32EncoderStep_end h5 (by simp [hend]) (by simp [hl0])⟩

/-- Settles O22: the state after `g` groups is `base32EncoderAt`, whose cursors do not wrap. -/
theorem base32EncoderStepEquivalence : Obligations.Base32EncoderStepEquivalence := by
  intro s g hb hp ho hi hptr hl hy hfit h5 hg hin
  have hg : 5 * g ≤ s.n.toNat := by omega
  obtain ⟨m, x, hm, hrun⟩ := coreRun_base32Encoder ⟨hb, hp, ho, hi, hptr, hfit⟩ hl hy h5 hg hin
  have hfit := BitVec.le_def.mp hfit
  have hlen := base32Groups_inputBytes_length s g
  exact ⟨_, hrun, rfl, idx_ofNat hg, outPtr_ofNat (s := s) (by rw [outCap]; omega), rfl, rfl,
    base32Encode_of_groups (by simp), fun j hj => hm.read_of_lt (hlen ▸ hj), fun j hj => hm.read_of_le (hlen ▸ hj)⟩

/-- base32_encoder completes after its last group (R166, R167). -/
theorem coreRun_base32Encoder_complete (h : DatapathStart s 2#2) (hl : s.loads = 0#3) (hy : s.syms = 0#4)
    (h5 : s.n.toNat % 5 = 0) (hin : InputWritten s s.n.toNat) :
    ∃ m x, StoredOver s.outBuf (base32Groups (inputBytes s s.n.toNat)) m ∧
      coreRun (13 * (s.n.toNat / 5) + 1) s =
        .next (complete (base32EncoderAt s m x s.n.toNat (8 * (s.n.toNat / 5)) 0 0)) := by
  have hgroups : 5 * (s.n.toNat / 5) = s.n.toNat := by omega
  obtain ⟨m, x, hm, hrun⟩ := coreRun_base32Encoder h hl hy h5 hgroups.le (hgroups.symm ▸ hin)
  rw [hgroups] at hm hrun
  have hend : ¬ (0#3 < 5#3 ∧ BitVec.ofNat 17 s.n.toNat < s.n) := by simp
  exact ⟨m, x, hm, coreRun_snoc hrun
    ((coreStep_base32EncoderAt h m x _ _ 0 0).trans (base32EncoderStep_end h5 hend (show 0#3 ≠ 5#3 by decide)))⟩

/-! ### The command -/

/-- No command's word is reserved (R81, R102). -/
theorem illegalWord_encode (i : Instr) : illegalWord (encode i) = false := by cases i <;> rfl

/-- A command on an input that fits is acceptance, the CHECK step and the steps of its unit; once these have ended it, the rest
of the core steps change nothing (R105). -/
theorem exec_of_coreRun_checked {i : Instr} {k : Nat} (hb : s.status.state ≠ .busy) (hfit : s.inLen ≤ s.cap)
    (hrun : coreRun k (checked (accept (encode i) { s with gap := 0 })) = .next t) (ht : t.status.state ≠ .busy)
    (hgap : k + 1 ≤ s.gap) : exec i s = .next t := by
  have hcheck : coreStep (accept (encode i) { s with gap := 0 }) =
      .next (checked (accept (encode i) { s with gap := 0 })) := by
    rw [coreStep_check rfl rfl, checkStep_pass (illegalWord_encode i) hfit]
  rw [exec_of_not_busy _ hb]
  exact coreRun_stable ((coreRun_step hcheck).trans hrun) ht hgap

/-- base32_encoder as CHECK leaves it after ENCODE_BASE32 is accepted, with no core step to follow yet (R102, R105). -/
abbrev encodeBase32Start (s : State) : State := checked (accept (encode .encodeBase32) { s with gap := 0 })

/-- Settles O27: base32_encoder completes within the core steps that follow, with the characters of its input stored. -/
theorem encodeBase32Result : Obligations.EncodeBase32Result := by
  intro s hb hfit h5 hin hgap
  obtain ⟨m, x, hm, hrun⟩ := coreRun_base32Encoder_complete (s := encodeBase32Start s)
    (datapathStart_checked (encode .encodeBase32) hfit) rfl rfl h5 hin
  have hgroups : 8 * (s.inLen.toNat / 5) = 8 * s.inLen.toNat / 5 := by omega
  have hlen : (base32Groups (inputBytes s s.inLen.toNat)).length = 8 * s.inLen.toNat / 5 := by
    rw [base32Groups_length (s.inLen.toNat / 5) (by rw [inputBytes_length]; omega), hgroups]
  have hptr : (BitVec.ofNat 18 (8 * (s.inLen.toNat / 5))).toNat = 8 * s.inLen.toNat / 5 := by
    have hle := BitVec.le_def.mp hfit
    rw [hgroups]
    exact outPtr_ofNat (s := s) (by rw [outCap]; omega)
  have hidx : BitVec.ofNat 17 s.inLen.toNat = s.inLen := by simp
  obtain ⟨-, -, hout⟩ := showsOutcome_complete
    (s := base32EncoderAt (encodeBase32Start s) m x s.inLen.toNat (8 * (s.inLen.toNat / 5)) 0 0) (hptr.trans hlen.symm) hm
  exact ⟨_, _, exec_of_coreRun_checked hb hfit hrun (by simp) hgap, rfl, hptr, base32Encode_of_groups (by simpa using h5),
    fun j _ => hout j, fun j hj => hm.read_of_le (hlen ▸ hj), ⟨rfl, rfl, rfl, rfl, rfl, rfl, rfl⟩, rfl, rfl, rfl, hidx, rfl,
    rfl, rfl, rfl, rfl, rfl⟩

/-- Settles O28: the first step of base32_encoder raises the error, whatever the input holds. -/
theorem encodeBase32InvalidLength : Obligations.EncodeBase32InvalidLength := by
  intro s hb hfit h5 hgap
  have hstep : coreStep (encodeBase32Start s) = .next (raise .invalidLength 5#8 (encodeBase32Start s)) :=
    (coreStep_base32Encoder rfl rfl rfl).trans (base32EncoderStep_length h5)
  obtain ⟨-, -, hout⟩ := showsOutcome_raise (s := encodeBase32Start s) .invalidLength 5#8 rfl
  exact ⟨_, exec_of_coreRun_checked hb hfit ((coreRun_step hstep).trans (coreRun_zero _)) (by simp) hgap, rfl, rfl, hout, rfl,
    ⟨rfl, rfl, rfl, rfl, rfl, rfl, rfl⟩, rfl, rfl, rfl, rfl, rfl, rfl, rfl, rfl, rfl, rfl, rfl⟩

end Sys2Proof.Machine

/-! Errors that are not a unit's own: a command that fails its checks (O15, O29), and how the error state is left (O43). -/

namespace Sys2Proof.Machine

variable {s : State}

/-! ### A failed check -/

/-- An accepted word whose checks fail ends in their error at the first core step, and the rest change nothing (R205). -/
theorem coreRun_accept_of_check {w : Word} {e : ErrCode} {info : Byte} {k : Nat}
    (hc : check (illegalWord w) s.inLen s.cap = some (e, info)) (hk : 1 ≤ k) :
    coreRun k (accept w s) = .next (raise e info (accept w s)) := by
  have hstep : coreStep (accept w s) = .next (raise e info (accept w s)) := by
    rw [coreStep_check rfl rfl, checkStep_of_check hc]
  exact coreRun_stable ((coreRun_step hstep).trans (coreRun_zero _)) (by simp) hk

/-- ILLEGAL_OP comes first, whatever the length (R204, R205). -/
theorem check_of_illegal (len cap : BitVec 17) : check true len cap = some (.illegalOp, 0#8) := rfl

/-- A legal word on a length beyond IN_CAP fails with CAPACITY_EXCEEDED (R203, R205). -/
theorem check_of_long {len cap : BitVec 17} (h : cap < len) : check false len cap = some (.capacityExceeded, 0#8) :=
  if_pos h

/-- Outside BUSY the turn of a CMD write is the acceptance of its word and the core steps after it (R101, R102). -/
theorem step_of_cmdWrite {w : Word} {g : Nat} {rest : List Turn}
    (ha : s.agenda = { event := .access (.write4 cmdOffset w), gap := g } :: rest) (hb : s.status.state ≠ .busy) :
    step s = coreRun g (accept w { s with agenda := rest, gap := 0, response := some .ok }) := by
  obtain ⟨hturn, -⟩ := stepTakesTheNextEventThenTheCore
  rw [hturn s _ g rest ha]
  exact congrArg (coreRun g) ((hostAccess_cmd w _).trans (request_of_not_busy _ _ hb))

/-- Settles O15: the word is accepted with ILL set, and the CHECK step raises ILLEGAL_OP. -/
theorem reservedWordEndsInIllegalOp : Obligations.ReservedWordEndsInIllegalOp := by
  intro s w g rest ha hb hg hw
  have hill : illegalWord w = true := by rw [illegalWord_eq_decide, decide_eq_true hw]
  refine ⟨_, (step_of_cmdWrite ha hb).trans (coreRun_accept_of_check (hill ▸ check_of_illegal _ _) hg), ?_⟩
  exact ⟨rfl, rfl, rfl, rfl, rfl, rfl, rfl, rfl⟩

/-- Settles O29: the command's word is legal, so the CHECK step raises CAPACITY_EXCEEDED before any unit runs. -/
theorem capacityExceededByEveryCommand : Obligations.CapacityExceededByEveryCommand := by
  intro i s hb hlen hgap
  have hc : check (illegalWord (encode i)) s.inLen s.cap = some (.capacityExceeded, 0#8) :=
    illegalWord_encode i ▸ check_of_long hlen
  have hop : (encode i).extractLsb' 0 2 = opcode i := opField_encode i
  obtain ⟨hstatus, hout, hdefined⟩ :=
    showsOutcome_raise (s := accept (encode i) { s with gap := 0 }) .capacityExceeded 0#8 rfl
  rw [accept_status, acceptedStatus_op, hop] at hstatus
  rw [exec_of_not_busy i hb]
  exact ⟨_, coreRun_accept_of_check hc hgap, hstatus, hout, hdefined, rfl, ⟨rfl, rfl, rfl, rfl, rfl, rfl, rfl⟩, hop,
    illegalWord_encode i, rfl, rfl, rfl, rfl, rfl, rfl, rfl, rfl, rfl⟩

/-! ### Leaving the error state -/

/-- Settles O43: an error is a result that stays, except for acceptance and reset, which write the flags anew. -/
theorem errorIsLeftOnlyByCommandOrReset : Obligations.ErrorIsLeftOnlyByCommandOrReset := by
  refine ⟨fun s t herr hst hev => ?_, fun s w herr => ?_, fun s => resetBlock_status s⟩
  · obtain ⟨hstatus, -⟩ := resultStaysUntilTheNextCommand s t (.inr herr) hst hev
    exact hstatus
  · have hb : s.status.state ≠ .busy := by simp [herr]
    exact congrArg State.status ((hostAccess_cmd w s).trans (request_of_not_busy _ _ hb))

end Sys2Proof.Machine

/-! Reset and hazards: what a reset leaves, that only a reset leads to IDLE, and where a command stops on an input byte the host
has not written (O34, O45, O47, O48). -/

namespace Sys2Proof.Machine

variable {s t : State}

/-! ### Reset -/

/-- The STATUS word of the reset values is 0 (R28, R39). -/
theorem statusWord_reset : statusWord State.reset.status = 0#32 := by decide

/-- A block with the reset values has no defined byte of OUT (R39, R40). -/
theorem outDefined_of_reset_status (h : s.status = State.reset.status) (j : Nat) : outDefined s j = none :=
  outDefined_eq_none (.inl (by simp [h]))

/-- Settles O47: both states have the reset values, whose buffers list no byte; IN_CAP has its range. -/
theorem resetSetsTheStatedValues : Obligations.ResetSetsTheStatedValues := by
  obtain ⟨hmin, hmax⟩ := capInv_reset
  exact ⟨fun s => ⟨statusWord_reset, rfl, rfl, rfl, fun _ => rfl, outDefined_of_reset_status rfl⟩,
    statusWord_reset, rfl, rfl, rfl, hmin, hmax, fun _ => rfl, outDefined_of_reset_status rfl⟩

/-- Settles O48: after the reset the block is IDLE, so the core steps that would follow change nothing. -/
theorem resetAbandonsTheCommand : Obligations.ResetAbandonsTheCommand := by
  intro s g rest _ ha
  exact ⟨_, (step_of_agenda ha).trans (settle_of_not_busy (by simp [hostEvent])), rfl, rfl, outDefined_of_reset_status rfl⟩

/-- No event but a reset leads to IDLE: the only other writer of the flags is a CMD write, which makes the block BUSY (R41,
R102). -/
theorem hostEvent_not_idle {e : Event} (he : e ≠ .reset) (hs : s.status.state ≠ .idle) :
    (hostEvent e s).status.state ≠ .idle := by
  obtain ⟨hwriters, -⟩ := flagsHaveFourWriters
  by_cases hsame : (hostEvent e s).status = s.status
  · rwa [hsame]
  · obtain hr | ⟨w, rfl, hb⟩ := hwriters e s hsame
    · exact absurd hr he
    · have hevent : hostEvent (.access (.write4 0x00000#18 w)) s = accept w { s with response := some .ok } :=
        (hostAccess_cmd w s).trans (request_of_not_busy _ _ hb)
      simp [hevent]

/-- No run of core steps leads to IDLE. -/
theorem coreRun_not_idle {k : Nat} (h : coreRun k s = .next t) (hs : s.status.state ≠ .idle) : t.status.state ≠ .idle :=
  coreRun_keeps (fun u => u.status.state ≠ .idle) (fun _ _ hu hst => coreStep_not_idle hst hu) h hs

/-- Settles O45: neither a core step nor an event that is no reset leads to IDLE. -/
theorem onlyResetLeadsToIdle : Obligations.OnlyResetLeadsToIdle := by
  intro s t hst hidle hs
  rcases step_cases hst with ⟨-, hst⟩ | ⟨u, rest, ha, hst⟩
  · exact absurd hidle (coreStep_not_idle hst hs)
  · refine ⟨u, rest, ha, ?_⟩
    by_contra hu
    exact coreRun_not_idle hst (hostEvent_not_idle hu hs) hidle

/-! ### Runs that stop -/

/-- A run stops at a core step that stops. -/
theorem coreRun_snoc_fault {k : Nat} {f : Fault} (h : coreRun k s = .next t) (h' : coreStep t = .fault f) :
    coreRun (k + 1) s = .fault f := by
  rw [coreRun_add, h, andThen_next, coreRun_succ, h', andThen_fault]

/-- A run that stops does so however many core steps would follow. -/
theorem coreRun_fault_of_le {j k : Nat} {f : Fault} (h : coreRun j s = .fault f) (hk : j ≤ k) : coreRun k s = .fault f := by
  obtain ⟨d, rfl⟩ := Nat.exists_eq_add_of_le hk
  rw [coreRun_add, h, andThen_fault]

/-- A command's unit as CHECK leaves it after the command is accepted, with no core step to follow yet (R102, R105). -/
abbrev unitStart (i : Instr) (s : State) : State := checked (accept (encode i) { s with gap := 0 })

/-- A command on an input that fits stops where its unit stops: acceptance and the CHECK step go on (R105). -/
theorem exec_of_coreRun_fault {i : Instr} {k : Nat} {f : Fault} (hb : s.status.state ≠ .busy) (hfit : s.inLen ≤ s.cap)
    (hrun : coreRun k (unitStart i s) = .fault f) (hgap : k + 1 ≤ s.gap) : exec i s = .fault f := by
  have hcheck : coreStep (accept (encode i) { s with gap := 0 }) = .next (unitStart i s) := by
    rw [coreStep_check rfl rfl, checkStep_pass (illegalWord_encode i) hfit]
  rw [exec_of_not_busy i hb]
  exact coreRun_fault_of_le ((coreRun_step hcheck).trans hrun) hgap

/-! ### Units at an unwritten input byte -/

/-- Reading IN[IDX] stops when that byte is not written (U6). -/
theorem withInput_idx_unwritten {i : Nat} {k : Byte → Result} (hidx : s.idx.toNat = i) (hi : i < s.cap.toNat)
    (hno : Memory.read s.inBuf i = none) : withInput s s.idx.toNat k = .fault (.unwrittenInput i) := by
  subst hidx
  exact withInput_of_unwritten hi hno

/-- hex_encoder stops at the first unwritten byte, after a step for each byte before it (R124). -/
theorem coreRun_hexEncoder_unwritten (h : DatapathStart s 0#2) {i : Nat} (hi : i < s.n.toNat) (hin : InputWritten s i)
    (hno : Memory.read s.inBuf i = none) : coreRun (i + 1) s = .fault (.unwrittenInput i) := by
  obtain ⟨m, -, hrun⟩ := coreRun_hexEncoder h hi.le hin
  have hidx := idx_ofNat hi.le
  have hcap := hi.trans_le (BitVec.le_def.mp h.fits)
  refine coreRun_snoc_fault hrun ?_
  rw [coreStep_hexEncoderAt h, hexEncoderStep, if_pos (by simpa only [BitVec.lt_def, hidx] using hi)]
  exact withInput_idx_unwritten hidx hcap hno

/-- hex_decoder stops at the first unwritten byte if every character before it is a hex digit (R146). -/
theorem coreRun_hexDecoder_unwritten (h : DatapathStart s 1#2) (hh : s.half = false) {i : Nat}
    (hi : i < consumed s.n.toNat) (hin : InputWritten s i) (hv : ∀ k < i, (decLut (inValue s k)).isSome = true)
    (hno : Memory.read s.inBuf i = none) : coreRun (i + 1) s = .fault (.unwrittenInput i) := by
  obtain ⟨m, p, out, hrun, -⟩ := coreRun_hexDecoder h hh hi.le hin hv
  have hn := hi.trans_le (consumed_le _)
  have hidx := idx_ofNat hn.le
  have hcap := hn.trans_le (BitVec.le_def.mp h.fits)
  refine coreRun_snoc_fault hrun ?_
  rw [coreStep_hexDecoderAt h, hexDecoderStep, if_pos (by simpa only [hidx] using hi)]
  exact withInput_idx_unwritten hidx hcap hno

/-- base32_encoder stops at the first unwritten byte, after the groups before it and the loads before it in its own group
(R165, R167). -/
theorem coreRun_base32Encoder_unwritten (h : DatapathStart s 2#2) (hl : s.loads = 0#3) (hy : s.syms = 0#4)
    (h5 : s.n.toNat % 5 = 0) {i : Nat} (hi : i < s.n.toNat) (hin : InputWritten s i)
    (hno : Memory.read s.inBuf i = none) :
    coreRun (13 * (i / 5) + i % 5 + 1) s = .fault (.unwrittenInput i) := by
  have hsplit : 5 * (i / 5) + i % 5 = i := Nat.div_add_mod i 5
  obtain ⟨m, x, -, hgroups⟩ := coreRun_base32Encoder h hl hy h5 (g := i / 5) (by omega) fun j hj => hin j (by omega)
  have hloads := coreRun_base32Loads h h5 m x (i := 5 * (i / 5)) (p := 8 * (i / 5)) (j := i % 5) (by omega) (by omega)
    fun j hj => hin j (by omega)
  rw [hsplit] at hloads
  have hidx := idx_ofNat hi.le
  have hcap := hi.trans_le (BitVec.le_def.mp h.fits)
  have hload : BitVec.ofNat 3 (i % 5) < 5#3 := by
    rw [BitVec.lt_def, BitVec.toNat_ofNat, BitVec.toNat_ofNat]; omega
  refine coreRun_snoc_fault (coreRun_trans hgroups hloads) ?_
  rw [coreStep_base32EncoderAt h, base32EncoderStep, if_neg (not_not.mpr h5),
    if_pos ⟨hload, by simpa only [BitVec.lt_def, hidx] using hi⟩]
  exact withInput_idx_unwritten hidx hcap hno

/-- Settles O34: each unit stops at the byte, after the CHECK step and its steps on the bytes before it. -/
theorem unwrittenInputStopsTheCommand : Obligations.UnwrittenInputStopsTheCommand := by
  intro s i hb hfit hi hin hno
  have hstart (c : Instr) : DatapathStart (unitStart c s) (opcode c) :=
    opField_encode c ▸ datapathStart_checked (encode c) hfit
  exact ⟨exec_of_coreRun_fault hb hfit (coreRun_hexEncoder_unwritten (hstart .encodeHex) hi hin hno),
    fun h5 => exec_of_coreRun_fault hb hfit (coreRun_base32Encoder_unwritten (hstart .encodeBase32) rfl rfl h5 hi hin hno),
    fun hi' hv => exec_of_coreRun_fault hb hfit (coreRun_hexDecoder_unwritten (hstart .decodeHex) rfl hi' hin hv hno)⟩

end Sys2Proof.Machine
